-- ==== Sys2Proof/Word.lean ====
section
/-! DEFINITION. The machine's words: a byte (one buffer cell), a 32-bit register, a 64-bit pair, a byte offset in the
window (spec/10_state.md R20, spec/20_memory.md R60 to R62). -/

namespace Sys2Proof

/-- The content of one buffer cell (R9, R20). -/
abbrev Byte := BitVec 8

/-- The content of one register, and the data of one host access (R20, R62). -/
abbrev Word := BitVec 32

/-- A 64-bit quantity held in a register pair: the reference time, the counter (R12, R27, R28). -/
abbrev DWord := BitVec 64

/-- A byte offset from BASE inside the block's window of 0x2000 bytes: exactly `0 <= off < 0x2000` (R60, R62). -/
abbrev Offset := BitVec 13

end Sys2Proof
end

