-- ==== Sys2Proof/Syntax.lean ====
section
/-! DEFINITION. The commands of the block, one constructor per row of spec/opcode_table.json (spec/30_encoding.md R91).
No command has an operand: every operand is a register or a buffer named in the command's rule (R95). -/

namespace Sys2Proof

/-- The seven commands (R91). -/
inductive Instr where
  /-- `B32ENC`: encode `IBUF[0..ILEN)` to Base32 text (R121). -/
  | b32enc
  /-- `B32DEC`: decode the Base32 text `IBUF[0..ILEN)` (R122). -/
  | b32dec
  /-- `TSTEP`: time to counter and seconds remaining (R193). -/
  | tstep
  /-- `HMAC`: the digest of the counter under the secret (R161). -/
  | hmac
  /-- `DTRUNC`: dynamic truncation and digit extraction (R194). -/
  | dtrunc
  /-- `TOTP`: the whole of `ComputeCode` (R195). -/
  | totp
  /-- `CLEAR`: zeroise the block (R210). -/
  | clear
  deriving DecidableEq, Repr

/-- All seven, in the order of the opcode map (R91). -/
def Instr.all : List Instr := [.b32enc, .b32dec, .tstep, .hmac, .dtrunc, .totp, .clear]

end Sys2Proof
end

