-- ==== Sys2Proof/WellFormed.lean ====
section
/-! DEFINITION. What makes a command word well formed (spec/30_encoding.md R90, R92, R93). The commands themselves carry
no operand (R95), so there is nothing about a term of `Instr` that could be ill formed; the checks are on the word the
host writes: its reserved field is zero, and its opcode is one of the seven. -/

namespace Sys2Proof

/-- Bits 31:8 of a command word, the field `RSV` (R90). -/
abbrev wordRsv (w : Word) : BitVec 24 := w.extractLsb' 8 24

/-- Bits 7:0 of a command word, the field `OPCODE` (R90). -/
abbrev wordOpcode (w : Word) : Byte := w.extractLsb' 0 8

/-- The opcodes that select a command (R91). -/
def assignedOpcodes : List Byte := [0x01, 0x02, 0x10, 0x11, 0x12, 0x13, 0x20]

/-- Check 1: `RSV` must be zero (R92). -/
def rsvZero (w : Word) : Bool := wordRsv w == 0

/-- Check 2: the opcode is assigned (R93). -/
def opcodeAssigned (w : Word) : Bool := assignedOpcodes.contains (wordOpcode w)

/-- A word that is a command: both checks hold (R92, R93). -/
def wordWellFormed (w : Word) : Bool := rsvZero w && opcodeAssigned w

/-- A term of `Instr` has no operand to check (R95). -/
def Instr.wellFormed : Instr → Bool
  | .b32enc | .b32dec | .tstep | .hmac | .dtrunc | .totp | .clear => true

end Sys2Proof
end

