-- ==== Sys2Proof/Decode.lean ====
section
/-! DEFINITION. Decoding a command word, total on all 2^32 words, rejecting by name, and the encoder
(spec/30_encoding.md R90 to R94). -/

namespace Sys2Proof

/-- Why a word is not a command. Both are the one condition `IllegalCommand` of R225. -/
inductive DecodeError where
  /-- `RSV` is not zero (R92). -/
  | reservedBits
  /-- `RSV` is zero and the opcode is none of the seven (R93). -/
  | unassignedOpcode
  deriving DecidableEq, Repr

/-- One row of the opcode map: a word matches it when the masked word is the row's word (R90, opcode_table.json). -/
structure OpcodeRow where
  word  : Word
  mask  : Word
  instr : Instr
  deriving DecidableEq, Repr

/-- The opcode map (R91); the mask of every command is 0xFFFFFFFF (R90). -/
def opcodeTable : List OpcodeRow :=
  [ ⟨0x00000001, 0xFFFFFFFF, .b32enc⟩,
    ⟨0x00000002, 0xFFFFFFFF, .b32dec⟩,
    ⟨0x00000010, 0xFFFFFFFF, .tstep⟩,
    ⟨0x00000011, 0xFFFFFFFF, .hmac⟩,
    ⟨0x00000012, 0xFFFFFFFF, .dtrunc⟩,
    ⟨0x00000013, 0xFFFFFFFF, .totp⟩,
    ⟨0x00000020, 0xFFFFFFFF, .clear⟩ ]

/-- Whether a word matches a row. -/
def OpcodeRow.matchesWord (r : OpcodeRow) (w : Word) : Bool := w &&& r.mask == r.word

/-- The command a word encodes, or why it encodes none (R91 to R93). -/
def decode (w : Word) : Except DecodeError Instr :=
  match opcodeTable.find? (fun r => r.matchesWord w) with
  | some r => .ok r.instr
  | none => .error (if w >>> 8 = 0 then .unassignedOpcode else .reservedBits)

/-- The command word of a command: `OPCODE` in bits 7:0, `RSV` zero (R90, R91). -/
def encode : Instr → Word
  | .b32enc => 0x00000001
  | .b32dec => 0x00000002
  | .tstep  => 0x00000010
  | .hmac   => 0x00000011
  | .dtrunc => 0x00000012
  | .totp   => 0x00000013
  | .clear  => 0x00000020

/-- The word whose low `nbits` bits are those of `w` and whose other bits are 0: a command is always one 32-bit word
(R94), so every bit above `nbits` is 0. -/
def tableWord (nbits w : Nat) : Word := BitVec.ofNat 32 (w % 2 ^ nbits)

/-- The command the decoder reads from an instruction whose bits are `w`, numbered as opcode_table.json numbers them. -/
def decodeTableWord (nbits w : Nat) : Option Instr :=
  match decode (tableWord nbits w) with
  | .ok i => some i
  | .error _ => none

end Sys2Proof
end

