-- ==== Sys2Proof/Machine/Bytes.lean ====
section
/-! DEFINITION. Byte sequences as big-endian numbers (spec/00_scope.md R9 to R11, spec/20_memory.md R72). -/

namespace Sys2Proof.Machine

/-- The number a byte sequence is, most significant byte first: `BE32` on 4 bytes, `BE64` on 8 (R11). -/
def beNat (bs : List Byte) : Nat := bs.foldl (fun acc b => acc * 256 + b.toNat) 0

/-- `bytesBE_k(v)`: byte `i` is `(v >> (8*(k-1-i))) & 0xFF` (R11). -/
def bytesBE (k v : Nat) : List Byte :=
  (List.range k).map fun i => BitVec.ofNat 8 (v >>> (8 * (k - 1 - i)))

/-- The first `n` blocks of `size` bytes of a sequence, in order. -/
def blocks (size : Nat) : Nat → List Byte → List (List Byte)
  | 0, _ => []
  | n + 1, bs => bs.take size :: blocks size n (bs.drop size)

/-- The sequence cut into whole blocks of `size` bytes, in order; a remainder shorter than a block is left out. -/
def blocksOf (size : Nat) (bs : List Byte) : List (List Byte) := blocks size (bs.length / size) bs

/-- `rep(v, n)` (R9). -/
abbrev rep (v : Byte) (n : Nat) : List Byte := List.replicate n v

end Sys2Proof.Machine
end

