-- ==== Sys2Proof/Config.lean ====
section
/-! DEFINITION. The parameters of the block (spec/00_scope.md R7, spec/10_state.md R42). BASE is the one parameter the
spec leaves open (R7, D31, I1): nothing of the block depends on it, so it is an ARGUMENT of the platform layer
(Machine/HostProgram.lean) and no constant here. There is no free value: no rule leaves a value open
(spec/93_implementation_defined.md, the paragraph after its table). -/

namespace Sys2Proof.Config

/-- `KEY_MAX`, cells of the key buffer (R7, D5). -/
abbrev keyMax : Nat := 256

/-- `IBUF_MAX`, cells of the codec input buffer (R7, D5). -/
abbrev ibufMax : Nat := 256

/-- `OBUF_MAX`, cells of the codec output buffer (R7, D5). -/
abbrev obufMax : Nat := 512

/-- Cells of the code buffer: the largest digit count (R36). -/
abbrev codeCells : Nat := 8

/-- Cells of the digest buffer: the largest digest length (R37). -/
abbrev digestCells : Nat := 64

/-- Bytes of the block's window (R60). -/
abbrev windowBytes : Nat := 0x2000

/-- The one constraint on the open parameter BASE: it is a multiple of 4 (I20). -/
abbrev BaseOk (base : Nat) : Prop := base % 4 = 0

end Sys2Proof.Config
end

