-- ==== Sys2Proof/Machine/State.lean ====
section
/-! DEFINITION. The state of the block as plain data (spec/10_state.md R20): 16 registers of 32 bits and 5 byte
buffers, and beside them the model's own two fields, the host accesses not yet delivered and the port's responses so
far (notes/assumptions/1.md, 2.md). -/

namespace Sys2Proof.Machine

/-- One byte buffer: (cell number, byte) pairs, cell numbers strictly rising, no pair whose byte is what an unlisted
cell reads as (`Memory.unlisted`, Machine/Ops.lean). `Memory.Wf` says so. -/
abbrev Memory := List Host.Cell

/-- The nine operand registers, in the order of the window (R20, R61). -/
inductive OperandReg where
  | alg | digits | period | timeLo | timeHi | ctrLo | ctrHi | keylen | ilen
  deriving DecidableEq, Repr

/-- The five result registers, in the order of the window (R20, R61). -/
inductive ResultReg where
  | olen | remain | offset | bincode | value
  deriving DecidableEq, Repr

/-- One location of the window: a register, or a cell of a buffer (R20, R61). -/
inductive Loc where
  | cmd
  | status
  | operand (r : OperandReg)
  | result (r : ResultReg)
  | code (i : Fin Config.codeCells)
  | digest (i : Fin Config.digestCells)
  | key (i : Fin Config.keyMax)
  | ibuf (i : Fin Config.ibufMax)
  | obuf (i : Fin Config.obufMax)
  deriving DecidableEq, Repr

/-- One thing the outside world does to the block: a 32-bit read or write at an offset of the window (R13, R62), or a
pulse of the reset input (R250). -/
inductive HostEvent where
  | read (off : Offset)
  | write (off : Offset) (v : Word)
  | reset
  deriving DecidableEq, Repr

/-- What the port answers to one host access (R13, R228). -/
inductive Response where
  /-- A read returned this data. -/
  | data (v : Word)
  /-- A write completed. -/
  | done
  /-- The port's error response: the access raised `BusError` and changed nothing. -/
  | busError
  deriving DecidableEq, Repr

/-- Reasons a host access can stop. -/
inductive Fault where
  /-- `BusError` (R228). Raised by `memRead` and `memWrite` (Machine/Port.lean) for a misaligned or reserved offset and
  for a write to a read-only location. The step turns it into the port's error response and goes on with the block
  unchanged, as R228 and R102 say, so no step ends in it. Safe: nothing is invented, and nothing of the block changes. -/
  | busError
  deriving DecidableEq, Repr

/-- Reasons a command has no meaning in the model. -/
inductive Refusal where
  /-- The command is in the opcode table and has no meaning in the model yet. Raised only by an arm of `exec`; no arm
  raises it now. Safe: the model stops where the hardware goes on. -/
  | notModelled (mnemonic : String)
  deriving DecidableEq, Repr

/-- The state (R20). -/
structure State where
  /-- `CMD`, offset 0x000: the last word written, legal or not (R22). -/
  cmd     : Word
  /-- `STATUS`, offset 0x004: describes the most recent command only (R23). -/
  status  : Word
  /-- `ALG`, offset 0x008 (R24). -/
  alg     : Word
  /-- `DIGITS`, offset 0x00C (R25). -/
  digits  : Word
  /-- `PERIOD`, offset 0x010 (R26). -/
  period  : Word
  /-- `TIME_LO`, offset 0x014 (R27). -/
  timeLo  : Word
  /-- `TIME_HI`, offset 0x018 (R27). -/
  timeHi  : Word
  /-- `CTR_LO`, offset 0x01C (R28). -/
  ctrLo   : Word
  /-- `CTR_HI`, offset 0x020 (R28). -/
  ctrHi   : Word
  /-- `KEYLEN`, offset 0x024 (R29). -/
  keylen  : Word
  /-- `ILEN`, offset 0x028 (R30). -/
  ilen    : Word
  /-- `OLEN`, offset 0x02C (R31). -/
  olen    : Word
  /-- `REMAIN`, offset 0x030 (R32). -/
  remain  : Word
  /-- `OFFSET`, offset 0x034 (R33). -/
  offset  : Word
  /-- `BINCODE`, offset 0x038 (R34). -/
  bincode : Word
  /-- `VALUE`, offset 0x03C (R35). -/
  value   : Word
  /-- `CODE[0..8)`, offsets 0x040 to 0x05C (R36). -/
  code    : Memory
  /-- `DIGEST[0..64)`, offsets 0x100 to 0x1FC (R37). -/
  digest  : Memory
  /-- `KEY[0..256)`, offsets 0x400 to 0x7FC (R38). -/
  key     : Memory
  /-- `IBUF[0..256)`, offsets 0x800 to 0xBFC (R39). -/
  ibuf    : Memory
  /-- `OBUF[0..512)`, offsets 0x1000 to 0x17FC (R40). -/
  obuf    : Memory
  /-- The model's own: what the host does next, first event first, in the order the port delivers it (R74). -/
  pending : List HostEvent
  /-- The model's own: the port's response to each access performed so far, oldest first (R102). -/
  responses : List Response
  deriving DecidableEq, Repr

/-- The machine right after reset: every register and every cell is zero (R43). No host access is pending and none has
been answered. -/
def State.reset : State where
  cmd := 0
  status := 0
  alg := 0
  digits := 0
  period := 0
  timeLo := 0
  timeHi := 0
  ctrLo := 0
  ctrHi := 0
  keylen := 0
  ilen := 0
  olen := 0
  remain := 0
  offset := 0
  bincode := 0
  value := 0
  code := []
  digest := []
  key := []
  ibuf := []
  obuf := []
  pending := []
  responses := []

end Sys2Proof.Machine
end

