-- ==== Sys2Proof/Machine/Operands.lean ====
section
/-! DEFINITION. Every operand form of the commands (spec/30_encoding.md R95 to R97): the byte buffers read as byte
sequences, the 64-bit pairs, the enumerated and the ranged operands. All operands are implicit. -/

namespace Sys2Proof.Machine

/-- What a cell that is not listed reads as: the reset content of every cell (R43). -/
abbrev Memory.unlisted : Byte := 0

/-- One cell (R12: `KEY[i]`). -/
def Memory.read : Memory → Nat → Byte
  | [], _ => Memory.unlisted
  | (a, b) :: m, i => if a = i then b else Memory.read m i

/-- The sequence of the first `n` cells (R12: `KEY[0..n)`). -/
def Memory.bytes (m : Memory) (n : Nat) : List Byte := (List.range n).map fun i => Memory.read m i

/-- `TIME = TIME_HI * 2^32 + TIME_LO` (R12, R27, R96). -/
def State.time (s : State) : DWord := s.timeHi ++ s.timeLo

/-- `CTR = CTR_HI * 2^32 + CTR_LO` (R12, R28, R96). -/
def State.ctr (s : State) : DWord := s.ctrHi ++ s.ctrLo

/-- The secret, `KEY[0..KEYLEN)` (R29). -/
def State.secret (s : State) : List Byte := s.key.bytes s.keylen.toNat

/-- The input of a codec command, `IBUF[0..ILEN)` (R30). -/
def State.codecInput (s : State) : List Byte := s.ibuf.bytes s.ilen.toNat

/-- The hash functions the block supports (R24, R156): a closed enumeration. -/
inductive HashAlg where
  | sha1 | sha256 | sha512
  deriving DecidableEq, Repr

/-- The choice an `ALG` value names: 1, 2, 3, compared as unsigned 32-bit values; every other value is out of contract
(R24, R97). -/
def HashAlg.ofReg? (v : Word) : Option HashAlg :=
  if v = 1 then some .sha1 else if v = 2 then some .sha256 else if v = 3 then some .sha512 else none

/-- `ALG` is out of contract (R221, R226). -/
abbrev algBad (v : Word) : Prop := v.toNat = 0 ∨ 3 < v.toNat

/-- `PERIOD` is out of contract: outside 1 to 120 (R26, R221). -/
abbrev periodBad (v : Word) : Prop := v.toNat = 0 ∨ 120 < v.toNat

/-- `DIGITS` is out of contract: neither 6 nor 8 (R25, R221). -/
abbrev digitsBad (v : Word) : Prop := v.toNat ≠ 6 ∧ v.toNat ≠ 8

/-- The secret is empty (R221). -/
abbrev secretEmpty (keylen : Word) : Prop := keylen.toNat = 0

/-- The secret is beyond the key buffer (R224). -/
abbrev keylenOver (keylen : Word) : Prop := Config.keyMax < keylen.toNat

/-- The codec input is beyond the input buffer (R224). -/
abbrev ilenOver (ilen : Word) : Prop := Config.ibufMax < ilen.toNat

end Sys2Proof.Machine
end

