-- ==== Sys2Proof/Machine/Flags.lean ====
section
/-! DEFINITION. The status word and every flag computation (spec/10_state.md R23, spec/60_exceptions.md R221 to R226). -/

namespace Sys2Proof.Machine

/-- `STATUS.DONE`, bit 0 (R23). -/
def statusDone (st : Word) : Bool := st.getLsbD 0

/-- `STATUS.ERR`, bit 1 (R23). -/
def statusErr (st : Word) : Bool := st.getLsbD 1

/-- `STATUS.ERRCODE`, bits 7:4 (R23). -/
def statusErrcode (st : Word) : BitVec 4 := st.extractLsb' 4 4

/-- The field `INFO`, bits 15:8 (R23). -/
def statusInfo (st : Word) : Byte := st.extractLsb' 8 8

/-- The command errors, reported in `STATUS` (R220). `BusError` is a port error and no command error. -/
inductive CommandError where
  | invalidArgument | capacityError | illegalCommand
  deriving DecidableEq, Repr

/-- `ERRCODE` of a command error (R220, R23). -/
def CommandError.errcode : CommandError → BitVec 4
  | .invalidArgument => 1
  | .capacityError => 2
  | .illegalCommand => 3

/-- The status word of a rejected command: `ERR` set, `DONE` clear, the error code and `INFO` (R23). -/
def statusRejected (e : CommandError) (info : Byte) : Word :=
  (info.setWidth 32 <<< 8) ||| (e.errcode.setWidth 32 <<< 4) ||| 0x2#32

/-- The status word of a completed command: `DONE` alone (R23). -/
def statusSuccess : Word := 0x00000001

/-- What a command may need checked (R226). -/
inductive Need where
  | period | digits | alg | secret | ibuf
  deriving DecidableEq, Repr

/-- The failing checks of a command: bit `k` becomes `STATUS` bit `8 + k` (R226). -/
abbrev ArgBits := BitVec 6

/-- `ArgMask(needs)`: every check in `needs` is evaluated, none stops the others (R226). -/
def argMask (needs : List Need) (s : State) : ArgBits :=
  (if Need.period ∈ needs ∧ periodBad s.period then 0x01 else 0) |||
  (if Need.digits ∈ needs ∧ digitsBad s.digits then 0x02 else 0) |||
  (if Need.alg ∈ needs ∧ algBad s.alg then 0x04 else 0) |||
  (if Need.secret ∈ needs ∧ secretEmpty s.keylen then 0x08 else 0) |||
  (if Need.secret ∈ needs ∧ keylenOver s.keylen then 0x10 else 0) |||
  (if Need.ibuf ∈ needs ∧ ilenOver s.ilen then 0x20 else 0)

/-- What each command needs checked (R226). -/
def commandNeeds : Instr → List Need
  | .b32enc => [.ibuf]
  | .b32dec => [.ibuf]
  | .tstep => [.period]
  | .hmac => [.alg, .secret]
  | .dtrunc => [.digits, .alg]
  | .totp => [.period, .digits, .alg, .secret]
  | .clear => []

/-- The class of a rejection: `InvalidArgument` if any of the four argument checks failed, `CapacityError` if capacity
alone failed (R222, R227). -/
def rejectionClass (m : ArgBits) : CommandError :=
  if m &&& 0x0F#6 ≠ 0 then .invalidArgument else .capacityError

end Sys2Proof.Machine
end

