-- ==== Sys2Proof/Machine/Ops.lean ====
section
/-! DEFINITION. The named operations over the buffers and the registers, and the one operation that takes a command
error (spec/10_state.md R20 to R40, spec/60_exceptions.md R222). -/

namespace Sys2Proof.Machine

/-! ## Buffers -/

/-- `KEY[i] <- b`: the canonical form is kept; writing what an unlisted cell reads as removes the entry (R12, R68). -/
def Memory.write : Memory → Nat → Byte → Memory
  | [], i, b => if b = Memory.unlisted then [] else [(i, b)]
  | (a, c) :: m, i, b =>
    if i < a then (if b = Memory.unlisted then (a, c) :: m else (i, b) :: (a, c) :: m)
    else if i = a then (if b = Memory.unlisted then m else (i, b) :: m)
    else (a, c) :: Memory.write m i b

/-- The buffer whose cells from `i` on are the bytes `bs` and then zeros. -/
def Memory.ofBytesFrom : Nat → List Byte → Memory
  | _, [] => []
  | i, b :: bs =>
    if b = Memory.unlisted then Memory.ofBytesFrom (i + 1) bs else (i, b) :: Memory.ofBytesFrom (i + 1) bs

/-- A whole buffer written at once: the data, then zeros to the end (D20; R121, R161, R194). -/
def Memory.ofBytes (bs : List Byte) : Memory := Memory.ofBytesFrom 0 bs

/-- The canonical form of a buffer of `size` cells: cell numbers strictly rising and below `size`, no entry equal to
what an unlisted cell reads as. -/
abbrev Memory.Wf (size : Nat) (m : Memory) : Prop :=
  m.Pairwise (fun c d => c.1 < d.1) ∧ ∀ c ∈ m, c.1 < size ∧ c.2 ≠ Memory.unlisted

/-! ## Registers -/

/-- The value of an operand register. -/
def State.operand (s : State) : OperandReg → Word
  | .alg => s.alg
  | .digits => s.digits
  | .period => s.period
  | .timeLo => s.timeLo
  | .timeHi => s.timeHi
  | .ctrLo => s.ctrLo
  | .ctrHi => s.ctrHi
  | .keylen => s.keylen
  | .ilen => s.ilen

/-- `REG <- v`: all 32 bits, whatever the value (R67, D9). -/
def State.setOperand (s : State) (r : OperandReg) (v : Word) : State :=
  match r with
  | .alg => { s with alg := v }
  | .digits => { s with digits := v }
  | .period => { s with period := v }
  | .timeLo => { s with timeLo := v }
  | .timeHi => { s with timeHi := v }
  | .ctrLo => { s with ctrLo := v }
  | .ctrHi => { s with ctrHi := v }
  | .keylen => { s with keylen := v }
  | .ilen => { s with ilen := v }

/-- The value of a result register. -/
def State.result (s : State) : ResultReg → Word
  | .olen => s.olen
  | .remain => s.remain
  | .offset => s.offset
  | .bincode => s.bincode
  | .value => s.value

/-- What a location holds, whoever may read it: a register's 32 bits, a cell's byte zero-extended. -/
def State.contents (s : State) : Loc → Word
  | .cmd => s.cmd
  | .status => s.status
  | .operand r => s.operand r
  | .result r => s.result r
  | .code i => (s.code.read i).setWidth 32
  | .digest i => (s.digest.read i).setWidth 32
  | .key i => (s.key.read i).setWidth 32
  | .ibuf i => (s.ibuf.read i).setWidth 32
  | .obuf i => (s.obuf.read i).setWidth 32

/-- `CMD <- v` (R22, R67). -/
def State.setCmd (s : State) (v : Word) : State := { s with cmd := v }

/-- `STATUS <- v` (R23). -/
def State.setStatus (s : State) (v : Word) : State := { s with status := v }

/-- A host write of a cell of `DIGEST` (R68: `v[7:0]`, the rest ignored). -/
def State.writeDigest (s : State) (i : Nat) (v : Word) : State :=
  { s with digest := s.digest.write i (v.setWidth 8) }

/-- A host write of a cell of `KEY` (R68). -/
def State.writeKey (s : State) (i : Nat) (v : Word) : State :=
  { s with key := s.key.write i (v.setWidth 8) }

/-- A host write of a cell of `IBUF` (R68). -/
def State.writeIbuf (s : State) (i : Nat) (v : Word) : State :=
  { s with ibuf := s.ibuf.write i (v.setWidth 8) }

/-! ## What the commands store -/

/-- The output of a codec command: all of `OBUF`, and `OLEN` (R121, R122). -/
def State.storeOutput (s : State) (out : List Byte) : State :=
  { s with obuf := Memory.ofBytes out, olen := BitVec.ofNat 32 out.length }

/-- The counter and the seconds remaining: `CTR_HI <- c[63:32]`, `CTR_LO <- c[31:0]`, `REMAIN` (R193). -/
def State.storeStep (s : State) (c remaining : Nat) : State :=
  { s with
    ctrHi := (BitVec.ofNat 64 c).extractLsb' 32 32
    ctrLo := (BitVec.ofNat 64 c).extractLsb' 0 32
    remain := BitVec.ofNat 32 remaining }

/-- The digest: all of `DIGEST` (R161). -/
def State.storeDigest (s : State) (d : List Byte) : State := { s with digest := Memory.ofBytes d }

/-- The results of the truncation: `OFFSET`, `BINCODE`, `VALUE`, and all of `CODE` (R194). -/
def State.storeCode (s : State) (off bin val : Nat) (text : List Byte) : State :=
  { s with
    offset := BitVec.ofNat 32 off
    bincode := BitVec.ofNat 32 bin
    value := BitVec.ofNat 32 val
    code := Memory.ofBytes text }

/-! ## The end of a command -/

/-- A command that succeeds: `STATUS <- 0x00000001` (R23). -/
def State.complete (s : State) : State := s.setStatus statusSuccess

/-- TAKING A COMMAND ERROR, the one operation of all three classes: `STATUS <- ERR | ERRCODE << 4 | INFO << 8` and nothing
else. No state is saved, no mode changes, no control goes anywhere; `CMD` already holds the word (R222, R225).
There is no return from it: the next command overwrites `STATUS`, and nothing else is to be restored (R232). -/
def State.takeCommandError (s : State) (e : CommandError) (info : Byte) : State := s.setStatus (statusRejected e info)

/-- `Reject(m)`, for `m != 0` (R222). -/
def State.reject (s : State) (m : ArgBits) : State := s.takeCommandError (rejectionClass m) (m.setWidth 8)

/-- `IllegalCommand`: `STATUS <- 0x00000032`, `INFO` is 0 (R225). -/
def State.illegalCommand (s : State) : State := s.takeCommandError .illegalCommand 0

/-- The check that opens every command: all its checks at once, before anything else is done; when one fails the command
is rejected, otherwise `body` runs (R181, R222, R226, R227). -/
def checked (i : Instr) (s : State) (body : State → State) : Host.Outcome State Fault Refusal :=
  if argMask (commandNeeds i) s = 0 then .next (body s) else .next (s.reject (argMask (commandNeeds i) s))

/-- The same for a command that also needs the hash function `ALG` names. `ALG` names none exactly when the check of `ALG`
fails, so the second arm is the rejection. -/
def checkedHash (i : Instr) (s : State) (body : HashAlg → State → State) : Host.Outcome State Fault Refusal :=
  match HashAlg.ofReg? s.alg with
  | some a => checked i s (body a)
  | none => .next (s.reject (argMask (commandNeeds i) s))

/-! ## The port's side of the state -/

/-- One more response of the port. -/
def State.respond (s : State) (r : Response) : State := { s with responses := s.responses ++ [r] }

/-- The state with the given events still to come. -/
def State.withPending (s : State) (es : List HostEvent) : State := { s with pending := es }

/-- A pulse of the reset input: every element of the block at its reset value, nothing of it survives (R250). What the
host still has to do and what it was answered is not the block's. -/
def State.resetBlock (s : State) : State := { State.reset with pending := s.pending, responses := s.responses }

end Sys2Proof.Machine
end

