-- ==== Sys2Proof/Machine/AddressMap.lean ====
section
/-! DEFINITION. The address map of the window (spec/20_memory.md R61; the offsets are those of spec/10_state.md R22 to
R40, which win where the two differ, C7). -/

namespace Sys2Proof.Machine

/-- The place of an operand register among the nine, in the order of R61. -/
def OperandReg.index : OperandReg → Nat
  | .alg => 0
  | .digits => 1
  | .period => 2
  | .timeLo => 3
  | .timeHi => 4
  | .ctrLo => 5
  | .ctrHi => 6
  | .keylen => 7
  | .ilen => 8

/-- The place of a result register among the five, in the order of R61. -/
def ResultReg.index : ResultReg → Nat
  | .olen => 0
  | .remain => 1
  | .offset => 2
  | .bincode => 3
  | .value => 4

/-- The offset of a location: cell `i` of a buffer is at the buffer's first offset plus `4 * i` (R22 to R40, R61). -/
def Loc.byteOffset : Loc → Nat
  | .cmd => 0x000
  | .status => 0x004
  | .operand r => 0x008 + 4 * r.index
  | .result r => 0x02C + 4 * r.index
  | .code i => 0x040 + 4 * i
  | .digest i => 0x100 + 4 * i
  | .key i => 0x400 + 4 * i
  | .ibuf i => 0x800 + 4 * i
  | .obuf i => 0x1000 + 4 * i

/-- The offset of a location as the port carries it. -/
def Loc.portOffset (l : Loc) : Offset := BitVec.ofNat 13 l.byteOffset

/-- The registers, in the order of the window from offset 0x000 on (R22 to R35). -/
def registersInOrder : List Loc :=
  [ .cmd, .status,
    .operand .alg, .operand .digits, .operand .period, .operand .timeLo, .operand .timeHi, .operand .ctrLo,
    .operand .ctrHi, .operand .keylen, .operand .ilen,
    .result .olen, .result .remain, .result .offset, .result .bincode, .result .value ]

/-- The cell of a buffer of `n` cells whose first offset is `first`, at an aligned offset; none outside the buffer. -/
def cellAt (first n off : Nat) : Option (Fin n) :=
  if h : first ≤ off ∧ (off - first) / 4 < n then some ⟨(off - first) / 4, h.2⟩ else none

/-- The location at an aligned offset; none at a reserved offset (R61, R64). -/
def locate (off : Nat) : Option Loc :=
  if off < 0x040 then registersInOrder[off / 4]?
  else if off < 0x100 then (cellAt 0x040 Config.codeCells off).map .code
  else if off < 0x400 then (cellAt 0x100 Config.digestCells off).map .digest
  else if off < 0x800 then (cellAt 0x400 Config.keyMax off).map .key
  else if off < 0x1000 then (cellAt 0x800 Config.ibufMax off).map .ibuf
  else (cellAt 0x1000 Config.obufMax off).map .obuf

/-- What the host may do with a location (R61). -/
inductive HostAccess where
  | readWrite | readOnly | writeOnly
  deriving DecidableEq, Repr

/-- The access column of R61. -/
def Loc.hostAccess : Loc → HostAccess
  | .cmd | .operand _ | .digest _ | .ibuf _ => .readWrite
  | .status | .result _ | .code _ | .obuf _ => .readOnly
  | .key _ => .writeOnly

end Sys2Proof.Machine
end

