-- ==== Sys2Proof/Machine/Base32.lean ====
section
/-! DEFINITION. The Base32 codec as functions over byte sequences of any length, and the commands `B32ENC` and `B32DEC`
(spec/40_base32_codec.md). -/

namespace Sys2Proof.Machine

/-! ## The alphabet -/

/-- `ALPHA(v)`, the code of the alphabet character of value `v`, 0 to 31 (R15, R110). -/
def alpha (v : Nat) : Byte := if v ≤ 25 then BitVec.ofNat 8 (0x41 + v) else BitVec.ofNat 8 (0x32 + (v - 26))

/-- `VAL(c)`, its inverse; `none` for a byte outside the alphabet (R15). -/
def val (c : Byte) : Option Nat :=
  if 0x41 ≤ c.toNat ∧ c.toNat ≤ 0x5A then some (c.toNat - 0x41)
  else if 0x32 ≤ c.toNat ∧ c.toNat ≤ 0x37 then some (c.toNat - 0x32 + 26)
  else none

/-- `UP(c)`: only 'a' to 'z' are changed (R113). -/
def upper (c : Byte) : Byte := if 0x61 ≤ c.toNat ∧ c.toNat ≤ 0x7A then c - 0x20 else c

/-! ## Encode -/

/-- `bit(k)` of the bitstream of `b`, most significant bit of byte 0 first; 0 beyond its `8n` bits, which is the zero
padding of the short final group (R111, R112). -/
def encBit (b : List Byte) (k : Nat) : Nat :=
  if k < 8 * b.length then ((b.getD (k / 8) 0).toNat >>> (7 - k % 8)) &&& 1 else 0

/-- `v(j)`, the value of the `j`-th 5-bit group, its first bit the most significant (R111). -/
def encGroup (b : List Byte) (j : Nat) : Nat :=
  encBit b (5 * j) * 16 + encBit b (5 * j + 1) * 8 + encBit b (5 * j + 2) * 4 + encBit b (5 * j + 3) * 2
    + encBit b (5 * j + 4)

/-- `m = ceil(8n / 5)`, the number of characters (R111). -/
def encLength (n : Nat) : Nat := (8 * n + 4) / 5

/-- `B32Enc(b)` (R111). -/
def b32Enc (b : List Byte) : List Byte := (List.range (encLength b.length)).map fun j => alpha (encGroup b j)

/-! ## Decode -/

/-- The values of the characters of a text that are in the alphabet, in the order of appearance (R113, R114). -/
def keptValues (t : List Byte) : List Nat := t.filterMap fun c => val (upper c)

/-- `sbit(k)` of the bitstream of the kept values, most significant bit of each value first (R115). -/
def decBit (w : List Nat) (k : Nat) : Nat := (w.getD (k / 5) 0 >>> (4 - k % 5)) &&& 1

/-- `o(i)`, the `i`-th byte, its first bit the most significant (R115). -/
def decByte (w : List Nat) (i : Nat) : Nat :=
  ((List.range 8).map fun u => decBit w (8 * i + u) * 2 ^ (7 - u)).sum

/-- `r = (5q) div 8`, the number of bytes; the bits left over are dropped (R115, R116). -/
def decLength (q : Nat) : Nat := 5 * q / 8

/-- `B32Dec(t)` (R113 to R116). -/
def b32Dec (t : List Byte) : List Byte :=
  (List.range (decLength (keptValues t).length)).map fun i => BitVec.ofNat 8 (decByte (keptValues t) i)

/-! ## The streaming form (R120): a bit accumulator `acc` that holds `nb` bits -/

/-- The inner loop of the encoder, `while nb >= 5`: it runs `nb / 5` times. What it emits, and the `acc` and `nb` it
leaves. -/
def encDrain : Nat → Nat → Nat → List Byte × Nat × Nat
  | 0, acc, nb => ([], acc, nb)
  | turns + 1, acc, nb =>
    let (out, acc', nb') := encDrain turns (acc &&& (2 ^ (nb - 5) - 1)) (nb - 5)
    (alpha ((acc >>> (nb - 5)) &&& 31) :: out, acc', nb')

/-- The encoder from `acc` and `nb` on: one input byte, the drain, the rest; at the end the short group, zero padded. -/
def encStream (acc nb : Nat) : List Byte → List Byte
  | [] => if nb > 0 then [alpha ((acc <<< (5 - nb)) &&& 31)] else []
  | x :: xs =>
    let (out, acc', nb') := encDrain ((nb + 8) / 5) ((acc <<< 8) ||| x.toNat) (nb + 8)
    out ++ encStream acc' nb' xs

/-- The decoder from `acc` and `nb` on; the `nb` bits left at the end are dropped. -/
def decStream (acc nb : Nat) : List Byte → List Byte
  | [] => []
  | c :: cs =>
    match val (upper c) with
    | none => decStream acc nb cs
    | some v =>
      let acc' := (acc <<< 5) ||| v
      let nb' := nb + 5
      if 8 ≤ nb' then
        BitVec.ofNat 8 ((acc' >>> (nb' - 8)) &&& 0xFF) :: decStream (acc' &&& (2 ^ (nb' - 8) - 1)) (nb' - 8) cs
      else decStream acc' nb' cs

/-- Encode as a streaming gearbox (R120). -/
def b32EncStream (b : List Byte) : List Byte := encStream 0 0 b

/-- Decode as a streaming gearbox (R120). -/
def b32DecStream (t : List Byte) : List Byte := decStream 0 0 t

/-! ## The commands -/

/-- `B32ENC` (R121). -/
def execB32enc (s : State) : Host.Outcome State Fault Refusal :=
  checked .b32enc s fun s => (s.storeOutput (b32Enc s.codecInput)).complete

/-- `B32DEC` (R122). -/
def execB32dec (s : State) : Host.Outcome State Fault Refusal :=
  checked .b32dec s fun s => (s.storeOutput (b32Dec s.codecInput)).complete

end Sys2Proof.Machine
end

