-- ==== Sys2Proof/Machine/Control.lean ====
section
/-! DEFINITION. The control command `CLEAR` (spec/43_control.md). -/

namespace Sys2Proof.Machine

/-- Every register and cell but `CMD` and `STATUS` at zero, in the order of R210's list. -/
def State.zeroise (s : State) : State :=
  { s with
    alg := 0, digits := 0, period := 0
    timeLo := 0, timeHi := 0, ctrLo := 0, ctrHi := 0
    keylen := 0, ilen := 0
    olen := 0, remain := 0, offset := 0, bincode := 0, value := 0
    code := Memory.ofBytes (rep 0 Config.codeCells)
    digest := Memory.ofBytes (rep 0 Config.digestCells)
    key := Memory.ofBytes (rep 0 Config.keyMax)
    ibuf := Memory.ofBytes (rep 0 Config.ibufMax)
    obuf := Memory.ofBytes (rep 0 Config.obufMax) }

/-- `CLEAR`; it cannot be rejected: it needs no check (R210, R226). -/
def execClear (s : State) : Host.Outcome State Fault Refusal :=
  checked .clear s fun s => s.zeroise.complete

end Sys2Proof.Machine
end

