-- ==== Sys2Proof/Machine/Hash.lean ====
section
/-! DEFINITION. The three hash functions as functions over byte sequences (spec/41_hmac_hash.md R140 to R156). The spec
supplies them from general knowledge (G1 to G3); this file follows the spec's text. -/

namespace Sys2Proof.Machine

/-! ## The parameter table (R140) -/

/-- `DigestLen(alg)`, bytes (R140). -/
def HashAlg.digestLen : HashAlg → Nat
  | .sha1 => 20
  | .sha256 => 32
  | .sha512 => 64

/-- `BlockLen(alg)`, bytes (R140). -/
def HashAlg.blockLen : HashAlg → Nat
  | .sha1 => 64
  | .sha256 => 64
  | .sha512 => 128

/-- Bytes of the length field of the padding (R140). -/
def HashAlg.lengthField : HashAlg → Nat
  | .sha1 => 8
  | .sha256 => 8
  | .sha512 => 16

/-! ## Padding and message words -/

/-- The smallest `k` with `(n + 1 + k + F) mod B = 0` (R141). -/
def padZeros (alg : HashAlg) (n : Nat) : Nat :=
  (alg.blockLen - (n + 1 + alg.lengthField) % alg.blockLen) % alg.blockLen

/-- `Pad(alg, M)`: 0x80, zeros, and the length in bits, most significant byte first (R141). -/
def padMessage (alg : HashAlg) (msg : List Byte) : List Byte :=
  msg ++ [0x80] ++ rep 0 (padZeros alg msg.length) ++ bytesBE alg.lengthField (8 * msg.length)

/-- The big-endian words of `w` bits in a block (R143, R149, R154). -/
def blockWords (w : Nat) (block : List Byte) : List (BitVec w) :=
  (blocksOf (w / 8) block).map fun bs => BitVec.ofNat w (beNat bs)

/-- `n` more schedule words; the list is newest first, so that `W[t-j]` is its element `j - 1`. -/
def extendSchedule {w : Nat} (next : List (BitVec w) → BitVec w) : Nat → List (BitVec w) → List (BitVec w)
  | 0, ws => ws
  | n + 1, ws => extendSchedule next n (next ws :: ws)

/-- The message schedule of `rounds` words of a block, in the order of the rounds. -/
def messageSchedule {w : Nat} (next : List (BitVec w) → BitVec w) (rounds : Nat) (block : List Byte) :
    List (BitVec w) :=
  (extendSchedule next (rounds - 16) (blockWords w block).reverse).reverse

/-! ## SHA1 -/

/-- A chaining value of SHA1, and its five working variables. -/
structure Chain5 where
  a : Word
  b : Word
  c : Word
  d : Word
  e : Word
  deriving DecidableEq, Repr

/-- The initial chaining value (R142). -/
def sha1Init : Chain5 := ⟨0x67452301, 0xEFCDAB89, 0x98BADCFE, 0x10325476, 0xC3D2E1F0⟩

/-- `f_t(b, c, d)` (R142). -/
def sha1F (t : Nat) (b c d : Word) : Word :=
  if t < 20 then (b &&& c) ||| (~~~b &&& d)
  else if t < 40 then b ^^^ c ^^^ d
  else if t < 60 then (b &&& c) ||| (b &&& d) ||| (c &&& d)
  else b ^^^ c ^^^ d

/-- `K_t` (R142). -/
def sha1K (t : Nat) : Word :=
  if t < 20 then 0x5A827999 else if t < 40 then 0x6ED9EBA1 else if t < 60 then 0x8F1BBCDC else 0xCA62C1D6

/-- `W[t]` for `t >= 16`: `rotl_32(W[t-3] ^ W[t-8] ^ W[t-14] ^ W[t-16], 1)` (R143). -/
def sha1Next (ws : List Word) : Word :=
  (ws.getD 2 0 ^^^ ws.getD 7 0 ^^^ ws.getD 13 0 ^^^ ws.getD 15 0).rotateLeft 1

/-- The rounds from `t` on, one per schedule word (R144). -/
def sha1Rounds (t : Nat) (v : Chain5) : List Word → Chain5
  | [] => v
  | w :: ws =>
    let x := v.a.rotateLeft 5 + sha1F t v.b v.c v.d + v.e + sha1K t + w
    sha1Rounds (t + 1) ⟨x, v.a, v.b.rotateLeft 30, v.c, v.d⟩ ws

/-- The compression of one 64-byte block (R144). -/
def sha1Compress (h : Chain5) (block : List Byte) : Chain5 :=
  let v := sha1Rounds 0 h (messageSchedule sha1Next 80 block)
  ⟨h.a + v.a, h.b + v.b, h.c + v.c, h.d + v.d, h.e + v.e⟩

/-- `SHA1(M)` (R145). -/
def sha1 (msg : List Byte) : List Byte :=
  let h := (blocksOf 64 (padMessage .sha1 msg)).foldl sha1Compress sha1Init
  [h.a, h.b, h.c, h.d, h.e].flatMap fun x => bytesBE 4 x.toNat

/-! ## SHA256 and SHA512: one shape, two parameter sets -/

/-- A chaining value of SHA256 or SHA512, and its eight working variables. -/
structure Chain8 (w : Nat) where
  a : BitVec w
  b : BitVec w
  c : BitVec w
  d : BitVec w
  e : BitVec w
  f : BitVec w
  g : BitVec w
  h : BitVec w
  deriving DecidableEq, Repr

/-- What distinguishes SHA256 from SHA512: the constants and the four rotation functions. -/
structure Sha2Params (w : Nat) where
  init : Chain8 w
  k : List (BitVec w)
  bsig0 : BitVec w → BitVec w
  bsig1 : BitVec w → BitVec w
  ssig0 : BitVec w → BitVec w
  ssig1 : BitVec w → BitVec w

/-- `Ch(x, y, z)` (R148, R153). -/
def sha2Ch {w : Nat} (x y z : BitVec w) : BitVec w := (x &&& y) ^^^ (~~~x &&& z)

/-- `Maj(x, y, z)` (R148, R153). -/
def sha2Maj {w : Nat} (x y z : BitVec w) : BitVec w := (x &&& y) ^^^ (x &&& z) ^^^ (y &&& z)

/-- `W[t]` for `t >= 16`: `SSIG1(W[t-2]) + W[t-7] + SSIG0(W[t-15]) + W[t-16]` (R149, R154). -/
def sha2Next {w : Nat} (p : Sha2Params w) (ws : List (BitVec w)) : BitVec w :=
  p.ssig1 (ws.getD 1 0) + ws.getD 6 0 + p.ssig0 (ws.getD 14 0) + ws.getD 15 0

/-- The rounds, one per pair of a round constant and a schedule word (R149, R154). -/
def sha2Rounds {w : Nat} (p : Sha2Params w) (v : Chain8 w) : List (BitVec w × BitVec w) → Chain8 w
  | [] => v
  | (k, x) :: rest =>
    let t1 := v.h + p.bsig1 v.e + sha2Ch v.e v.f v.g + k + x
    let t2 := p.bsig0 v.a + sha2Maj v.a v.b v.c
    sha2Rounds p ⟨t1 + t2, v.a, v.b, v.c, v.d + t1, v.e, v.f, v.g⟩ rest

/-- The compression of one block: as many rounds as there are round constants (R149, R154). -/
def sha2Compress {w : Nat} (p : Sha2Params w) (h : Chain8 w) (block : List Byte) : Chain8 w :=
  let v := sha2Rounds p h (p.k.zip (messageSchedule (sha2Next p) p.k.length block))
  ⟨h.a + v.a, h.b + v.b, h.c + v.c, h.d + v.d, h.e + v.e, h.f + v.f, h.g + v.g, h.h + v.h⟩

/-- The digest of a padded message: the chaining value after its last block, big-endian (R150, R155). -/
def sha2Digest {w : Nat} (p : Sha2Params w) (blockLen : Nat) (padded : List Byte) : List Byte :=
  let h := (blocksOf blockLen padded).foldl (sha2Compress p) p.init
  [h.a, h.b, h.c, h.d, h.e, h.f, h.g, h.h].flatMap fun x => bytesBE (w / 8) x.toNat

/-- The round constants of SHA256, in the rows of R147. -/
def sha256K : List Word :=
    [ 0x428A2F98, 0x71374491, 0xB5C0FBCF, 0xE9B5DBA5,
      0x3956C25B, 0x59F111F1, 0x923F82A4, 0xAB1C5ED5,
      0xD807AA98, 0x12835B01, 0x243185BE, 0x550C7DC3,
      0x72BE5D74, 0x80DEB1FE, 0x9BDC06A7, 0xC19BF174 ] ++
    [ 0xE49B69C1, 0xEFBE4786, 0x0FC19DC6, 0x240CA1CC,
      0x2DE92C6F, 0x4A7484AA, 0x5CB0A9DC, 0x76F988DA,
      0x983E5152, 0xA831C66D, 0xB00327C8, 0xBF597FC7,
      0xC6E00BF3, 0xD5A79147, 0x06CA6351, 0x14292967 ] ++
    [ 0x27B70A85, 0x2E1B2138, 0x4D2C6DFC, 0x53380D13,
      0x650A7354, 0x766A0ABB, 0x81C2C92E, 0x92722C85,
      0xA2BFE8A1, 0xA81A664B, 0xC24B8B70, 0xC76C51A3,
      0xD192E819, 0xD6990624, 0xF40E3585, 0x106AA070 ] ++
    [ 0x19A4C116, 0x1E376C08, 0x2748774C, 0x34B0BCB5,
      0x391C0CB3, 0x4ED8AA4A, 0x5B9CCA4F, 0x682E6FF3,
      0x748F82EE, 0x78A5636F, 0x84C87814, 0x8CC70208,
      0x90BEFFFA, 0xA4506CEB, 0xBEF9A3F7, 0xC67178F2 ]

/-- SHA256: the initial value of R146, the constants of R147, the functions of R148. -/
def sha256Params : Sha2Params 32 where
  init := ⟨0x6A09E667, 0xBB67AE85, 0x3C6EF372, 0xA54FF53A, 0x510E527F, 0x9B05688C, 0x1F83D9AB, 0x5BE0CD19⟩
  k := sha256K
  bsig0 x := x.rotateRight 2 ^^^ x.rotateRight 13 ^^^ x.rotateRight 22
  bsig1 x := x.rotateRight 6 ^^^ x.rotateRight 11 ^^^ x.rotateRight 25
  ssig0 x := x.rotateRight 7 ^^^ x.rotateRight 18 ^^^ (x >>> 3)
  ssig1 x := x.rotateRight 17 ^^^ x.rotateRight 19 ^^^ (x >>> 10)

/-- `SHA256(M)` (R150). -/
def sha256 (msg : List Byte) : List Byte := sha2Digest sha256Params 64 (padMessage .sha256 msg)

/-- The round constants of SHA512, in the rows of R152. -/
def sha512K : List DWord :=
    [ 0x428A2F98D728AE22, 0x7137449123EF65CD,
      0xB5C0FBCFEC4D3B2F, 0xE9B5DBA58189DBBC,
      0x3956C25BF348B538, 0x59F111F1B605D019,
      0x923F82A4AF194F9B, 0xAB1C5ED5DA6D8118 ] ++
    [ 0xD807AA98A3030242, 0x12835B0145706FBE,
      0x243185BE4EE4B28C, 0x550C7DC3D5FFB4E2,
      0x72BE5D74F27B896F, 0x80DEB1FE3B1696B1,
      0x9BDC06A725C71235, 0xC19BF174CF692694 ] ++
    [ 0xE49B69C19EF14AD2, 0xEFBE4786384F25E3,
      0x0FC19DC68B8CD5B5, 0x240CA1CC77AC9C65,
      0x2DE92C6F592B0275, 0x4A7484AA6EA6E483,
      0x5CB0A9DCBD41FBD4, 0x76F988DA831153B5 ] ++
    [ 0x983E5152EE66DFAB, 0xA831C66D2DB43210,
      0xB00327C898FB213F, 0xBF597FC7BEEF0EE4,
      0xC6E00BF33DA88FC2, 0xD5A79147930AA725,
      0x06CA6351E003826F, 0x142929670A0E6E70 ] ++
    [ 0x27B70A8546D22FFC, 0x2E1B21385C26C926,
      0x4D2C6DFC5AC42AED, 0x53380D139D95B3DF,
      0x650A73548BAF63DE, 0x766A0ABB3C77B2A8,
      0x81C2C92E47EDAEE6, 0x92722C851482353B ] ++
    [ 0xA2BFE8A14CF10364, 0xA81A664BBC423001,
      0xC24B8B70D0F89791, 0xC76C51A30654BE30,
      0xD192E819D6EF5218, 0xD69906245565A910,
      0xF40E35855771202A, 0x106AA07032BBD1B8 ] ++
    [ 0x19A4C116B8D2D0C8, 0x1E376C085141AB53,
      0x2748774CDF8EEB99, 0x34B0BCB5E19B48A8,
      0x391C0CB3C5C95A63, 0x4ED8AA4AE3418ACB,
      0x5B9CCA4F7763E373, 0x682E6FF3D6B2B8A3 ] ++
    [ 0x748F82EE5DEFB2FC, 0x78A5636F43172F60,
      0x84C87814A1F0AB72, 0x8CC702081A6439EC,
      0x90BEFFFA23631E28, 0xA4506CEBDE82BDE9,
      0xBEF9A3F7B2C67915, 0xC67178F2E372532B ] ++
    [ 0xCA273ECEEA26619C, 0xD186B8C721C0C207,
      0xEADA7DD6CDE0EB1E, 0xF57D4F7FEE6ED178,
      0x06F067AA72176FBA, 0x0A637DC5A2C898A6,
      0x113F9804BEF90DAE, 0x1B710B35131C471B ] ++
    [ 0x28DB77F523047D84, 0x32CAAB7B40C72493,
      0x3C9EBE0A15C9BEBC, 0x431D67C49C100D4C,
      0x4CC5D4BECB3E42B6, 0x597F299CFC657E2A,
      0x5FCB6FAB3AD6FAEC, 0x6C44198C4A475817 ]

/-- SHA512: the initial value of R151, the constants of R152, the functions of R153. -/
def sha512Params : Sha2Params 64 where
  init := ⟨0x6A09E667F3BCC908, 0xBB67AE8584CAA73B, 0x3C6EF372FE94F82B, 0xA54FF53A5F1D36F1,
    0x510E527FADE682D1, 0x9B05688C2B3E6C1F, 0x1F83D9ABFB41BD6B, 0x5BE0CD19137E2179⟩
  k := sha512K
  bsig0 x := x.rotateRight 28 ^^^ x.rotateRight 34 ^^^ x.rotateRight 39
  bsig1 x := x.rotateRight 14 ^^^ x.rotateRight 18 ^^^ x.rotateRight 41
  ssig0 x := x.rotateRight 1 ^^^ x.rotateRight 8 ^^^ (x >>> 7)
  ssig1 x := x.rotateRight 19 ^^^ x.rotateRight 61 ^^^ (x >>> 6)

/-- `SHA512(M)` (R155). -/
def sha512 (msg : List Byte) : List Byte := sha2Digest sha512Params 128 (padMessage .sha512 msg)

/-! ## Dispatch -/

/-- `Hash(alg, M)` (R156). -/
def hashOf : HashAlg → List Byte → List Byte
  | .sha1, msg => sha1 msg
  | .sha256, msg => sha256 msg
  | .sha512, msg => sha512 msg

end Sys2Proof.Machine
end

