-- ==== Sys2Proof/Machine/Hmac.lean ====
section
/-! DEFINITION. HMAC as a function over byte sequences, and the command `HMAC` (spec/41_hmac_hash.md R158 to R161). -/

namespace Sys2Proof.Machine

/-- `K'`: a key longer than one block is hashed first (R158). -/
def hmacShortKey (alg : HashAlg) (key : List Byte) : List Byte :=
  if alg.blockLen < key.length then hashOf alg key else key

/-- `K0`: zero-extended on the right to one block (R158). -/
def hmacBlockKey (alg : HashAlg) (key : List Byte) : List Byte :=
  hmacShortKey alg key ++ rep 0 (alg.blockLen - (hmacShortKey alg key).length)

/-- `ipad` (R158). -/
def hmacIpad (alg : HashAlg) (key : List Byte) : List Byte := (hmacBlockKey alg key).map fun b => b ^^^ 0x36

/-- `opad` (R158). -/
def hmacOpad (alg : HashAlg) (key : List Byte) : List Byte := (hmacBlockKey alg key).map fun b => b ^^^ 0x5C

/-- `HMAC(alg, K, M)` (R158). -/
def hmac (alg : HashAlg) (key msg : List Byte) : List Byte :=
  hashOf alg (hmacOpad alg key ++ hashOf alg (hmacIpad alg key ++ msg))

/-- The message of every HMAC the block computes: the 8-byte big-endian counter (R160, R183). -/
def counterBytes (c : Nat) : List Byte := bytesBE 8 c

/-- `HMAC` (R161). -/
def execHmac (s : State) : Host.Outcome State Fault Refusal :=
  checkedHash .hmac s fun alg s => (s.storeDigest (hmac alg s.secret (counterBytes s.ctr.toNat))).complete

end Sys2Proof.Machine
end

