-- ==== Sys2Proof/Machine/Totp.lean ====
section
/-! DEFINITION. The steps of `ComputeCode` as functions, and the commands `TSTEP`, `DTRUNC` and `TOTP`
(spec/42_totp_engine.md). -/

namespace Sys2Proof.Machine

/-! ## The steps (all values are unsigned integers, R192) -/

/-- Step 1: `Counter(T, P) = T div P` (R182). -/
def counterOf (t p : Nat) : Nat := t / p

/-- Step 9: `Remaining(T, P) = P - (T mod P)` (R190). -/
def remainingOf (t p : Nat) : Nat := p - t % p

/-- Step 4: the low four bits of the digest's last byte (R185). -/
def truncOffset (d : List Byte) : Nat := (d.getD (d.length - 1) 0).toNat &&& 0x0F

/-- Steps 5 and 6: the four bytes at the offset as a big-endian number, its top bit cleared (R186, R187). -/
def truncBincode (d : List Byte) : Nat := beNat ((d.drop (truncOffset d)).take 4) &&& 0x7FFFFFFF

/-- Step 7: `bincode mod 10^digits` (R188). -/
def codeValue (digits : Nat) (d : List Byte) : Nat := truncBincode d % 10 ^ digits

/-- `DIGIT(d)` (R15). -/
def digitChar (d : Nat) : Byte := BitVec.ofNat 8 (0x30 + d)

/-- Step 8: the value as exactly `digits` decimal digits, most significant first (R189). -/
def codeText (digits v : Nat) : List Byte :=
  (List.range digits).map fun i => digitChar (v / 10 ^ (digits - 1 - i) % 10)

/-! ## The stages' writes -/

/-- What steps 1 and 9 write (R193). -/
def State.timeStep (s : State) : State :=
  s.storeStep (counterOf s.time.toNat s.period.toNat) (remainingOf s.time.toNat s.period.toNat)

/-- What steps 4 to 8 write, for the digest `d` (R194). -/
def State.truncate (s : State) (d : List Byte) : State :=
  s.storeCode (truncOffset d) (truncBincode d) (codeValue s.digits.toNat d)
    (codeText s.digits.toNat (codeValue s.digits.toNat d))

/-! ## The commands -/

/-- `TSTEP` (R193). -/
def execTstep (s : State) : Host.Outcome State Fault Refusal :=
  checked .tstep s fun s => s.timeStep.complete

/-- `DTRUNC`: the digest is whatever `DIGEST[0..L)` holds (R194). -/
def execDtrunc (s : State) : Host.Outcome State Fault Refusal :=
  checkedHash .dtrunc s fun alg s => (s.truncate (s.digest.bytes alg.digestLen)).complete

/-- `TOTP`: `ComputeCode`, all checks first (R195). -/
def execTotp (s : State) : Host.Outcome State Fault Refusal :=
  checkedHash .totp s fun alg s =>
    let d := hmac alg s.secret (counterBytes (counterOf s.time.toNat s.period.toNat))
    ((s.timeStep.storeDigest d).truncate d).complete

end Sys2Proof.Machine
end

