-- ==== Sys2Proof/Machine/Dispatch.lean ====
section
/-! DEFINITION. What each command does, one arm per row of the opcode table (spec/30_encoding.md R91). -/

namespace Sys2Proof.Machine

/-- The execution of a command whose word `CMD` already holds (R22, R73). -/
def exec (i : Instr) (s : State) : Host.Outcome State Fault Refusal :=
  match i with
  | .b32enc => Sys2Proof.Machine.execB32enc s
  | .b32dec => Sys2Proof.Machine.execB32dec s
  | .tstep => Sys2Proof.Machine.execTstep s
  | .hmac => Sys2Proof.Machine.execHmac s
  | .dtrunc => Sys2Proof.Machine.execDtrunc s
  | .totp => Sys2Proof.Machine.execTotp s
  | .clear => Sys2Proof.Machine.execClear s

end Sys2Proof.Machine
end

