-- ==== Sys2Proof/Machine/Port.lean ====
section
/-! DEFINITION. The host port: what one 32-bit access does (spec/20_memory.md R62 to R70, spec/60_exceptions.md R228),
and what a write to `CMD` does (spec/10_state.md R22). -/

namespace Sys2Proof.Machine

/-- The location an access reaches: none when the offset is misaligned or reserved, and the access is then a `BusError`
(R63, R64, R228). -/
def accessed (off : Offset) : Option Loc := if off.toNat % 4 = 0 then locate off.toNat else none

/-- What a read of a location returns: a register's value, a cell's byte zero-extended, and 0 for a cell of `KEY`, which
is write only (R66, R69). -/
def portValue (s : State) (l : Loc) : Word :=
  match l.hostAccess with
  | .writeOnly => 0
  | .readWrite | .readOnly => s.contents l

/-- `MemRead(off, 4)`: the data, or `BusError`. A read never changes state (R63, R64, R66, R69, R70). -/
def memRead (off : Offset) (s : State) : Except Fault Word :=
  match accessed off with
  | some l => .ok (portValue s l)
  | none => .error .busError

/-- A host write of `v` to `CMD`: the word is stored whole, then the command it encodes runs, or `IllegalCommand` is
raised (R22, R67, R73, R93, R225). -/
def writeCmd (v : Word) (s : State) : Host.Outcome State Fault Refusal :=
  match decode v with
  | .ok i => exec i (s.setCmd v)
  | .error _ => .next (s.setCmd v).illegalCommand

/-- `MemWrite(off, 4, v)`: it completes, or raises `BusError` and changes nothing (R63 to R65, R67, R68). -/
def memWrite (off : Offset) (v : Word) (s : State) : Host.Outcome State Fault Refusal :=
  match accessed off with
  | some .cmd => writeCmd v s
  | some (.operand r) => .next (s.setOperand r v)
  | some (.digest i) => .next (s.writeDigest i v)
  | some (.key i) => .next (s.writeKey i v)
  | some (.ibuf i) => .next (s.writeIbuf i v)
  | some .status | some (.result _) | some (.code _) | some (.obuf _) | none => .fault .busError

/-- The port's response to a read (R13, R228). -/
def readResponse (off : Offset) (s : State) : Response :=
  match memRead off s with
  | .ok v => .data v
  | .error .busError => .busError

/-- One event of the outside world, performed whole (R73). A `BusError` is the port's error response: the block is
unchanged and the host goes on (R228, R102, P3). -/
def perform (e : HostEvent) (s : State) : Host.Outcome State Fault Refusal :=
  match e with
  | .read off => .next (s.respond (readResponse off s))
  | .write off v =>
    match memWrite off v s with
    | .next t => .next (t.respond .done)
    | .fault .busError => .next (s.respond .busError)
    | .refused r => .refused r
  | .reset => .next s.resetBlock

/-- The next step of the machine: the first pending event, or nothing at all when the host does nothing (R73, R74,
R251). -/
def nextStep (s : State) : Host.Outcome State Fault Refusal :=
  match s.pending with
  | [] => .next s
  | e :: rest => perform e (s.withPending rest)

/-- The state in which the very next host access writes the word `v` to `CMD`. -/
def State.withCommand (s : State) (v : Word) : State :=
  s.withPending (.write (Loc.portOffset .cmd) v :: s.pending)

end Sys2Proof.Machine
end

