-- ==== Sys2Proof/Machine/Step.lean ====
section
/-! DEFINITION. The step function: one host access, whole (spec/20_memory.md R73), and how a command is placed where the
next step takes it. -/

namespace Sys2Proof.Machine

/-- One step (R73, R74). -/
def step : State → Host.Outcome State Fault Refusal := nextStep

/-- `s` with the command word whose bits are `w` as the next host access: a write of it to `CMD` (R22). The block has no
program counter and fetches nothing (R21): the command is the data of the `CMD` write itself (R76). -/
def State.withFetchWord (s : State) (nbits w : Nat) : State := s.withCommand (tableWord nbits w)

end Sys2Proof.Machine
end

