-- ==== Sys2Proof/Machine/HostProgram.lean ====
section
/-! DEFINITION. Host programs: their lines, the encoding of a line, the pseudo-instructions and the runner
(spec/30_encoding.md R100 to R102), and where the window lies in the platform (spec/20_memory.md R60, R81). -/

namespace Sys2Proof.Machine

/-! ## Lines -/

/-- One line of a host program: `WR off, value` or `RD off` (R100). -/
inductive HostLine where
  | wr (off : Offset) (v : Word)
  | rd (off : Offset)
  deriving DecidableEq, Repr

/-- The host port primitive of a line (R100, R13). -/
def HostLine.event : HostLine → HostEvent
  | .wr off v => .write off v
  | .rd off => .read off

/-- `WR <loc>, v` (R100). -/
def wrLoc (l : Loc) (v : Word) : HostLine := .wr l.portOffset v

/-- `RD <loc>` (R100). -/
def rdLoc (l : Loc) : HostLine := .rd l.portOffset

/-- The bytes of a text of ASCII characters (R100, R101, R15). -/
def asciiBytes (text : String) : List Byte := text.toList.map fun c => BitVec.ofNat 8 c.toNat

/-! ## The encoding of a line: `W off value`, `R off`, the offset as 4 and the value as 8 hexadecimal digits -/

/-- A hexadecimal digit, capital letters. -/
def hexDigit (d : Nat) : Char := if d < 10 then Char.ofNat (0x30 + d) else Char.ofNat (0x37 + d)

/-- The value of a hexadecimal digit, none for another character. -/
def hexValue (c : Char) : Option Nat :=
  if 0x30 ≤ c.toNat ∧ c.toNat ≤ 0x39 then some (c.toNat - 0x30)
  else if 0x41 ≤ c.toNat ∧ c.toNat ≤ 0x46 then some (c.toNat - 0x37)
  else none

/-- `v` as `k` hexadecimal digits, most significant first. -/
def hexText (k v : Nat) : List Char := (List.range k).map fun i => hexDigit (v / 16 ^ (k - 1 - i) % 16)

/-- The number a sequence of hexadecimal digits is; `acc` is what stood before it. -/
def parseHex (acc : Nat) : List Char → Option Nat
  | [] => some acc
  | c :: cs =>
    match hexValue c with
    | some d => parseHex (acc * 16 + d) cs
    | none => none

/-- The encoding of a line (R100, R102). -/
def encodeLine : HostLine → List Char
  | .wr off v => 'W' :: ' ' :: (hexText 4 off.toNat ++ ' ' :: hexText 8 v.toNat)
  | .rd off => 'R' :: ' ' :: hexText 4 off.toNat

/-- The line that an encoding stands for: exactly the two forms, an offset inside the window, no comment. -/
def parseLine : List Char → Option HostLine
  | 'W' :: ' ' :: rest =>
    match parseHex 0 (rest.take 4), rest.drop 4 with
    | some off, ' ' :: vs =>
      match parseHex 0 vs with
      | some v =>
        if off < Config.windowBytes ∧ vs.length = 8 then some (.wr (BitVec.ofNat 13 off) (BitVec.ofNat 32 v)) else none
      | none => none
    | _, _ => none
  | 'R' :: ' ' :: rest =>
    match parseHex 0 rest with
    | some off =>
      if off < Config.windowBytes ∧ rest.length = 4 then some (.rd (BitVec.ofNat 13 off)) else none
    | none => none
  | _ => none

/-! ## Pseudo-instructions (R101) -/

/-- `CMD <mnemonic>`. -/
def cmdLine (i : Instr) : HostLine := wrLoc .cmd (encode i)

/-- `WR64 TIME, v`. -/
def wr64Time (v : DWord) : List HostLine :=
  [wrLoc (.operand .timeLo) (v.extractLsb' 0 32), wrLoc (.operand .timeHi) (v.extractLsb' 32 32)]

/-- `WR64 CTR, v`. -/
def wr64Ctr (v : DWord) : List HostLine :=
  [wrLoc (.operand .ctrLo) (v.extractLsb' 0 32), wrLoc (.operand .ctrHi) (v.extractLsb' 32 32)]

/-- Writes of the bytes `bs` to the cells `i`, `i + 1`, … of the buffer whose first offset is `first`. -/
def cellWrites (first : Nat) : Nat → List Byte → List HostLine
  | _, [] => []
  | i, b :: bs => .wr (BitVec.ofNat 13 (first + 4 * i)) (b.setWidth 32) :: cellWrites first (i + 1) bs

/-- `LDKEY b`; none where `b` needs a cell that `KEY` does not have. -/
def ldKey (b : List Byte) : Option (List HostLine) :=
  if b.length ≤ Config.keyMax then
    some (cellWrites 0x400 0 b ++ [wrLoc (.operand .keylen) (BitVec.ofNat 32 b.length)])
  else none

/-- `LDIBUF b`; none where `b` needs a cell that `IBUF` does not have. -/
def ldIbuf (b : List Byte) : Option (List HostLine) :=
  if b.length ≤ Config.ibufMax then
    some (cellWrites 0x800 0 b ++ [wrLoc (.operand .ilen) (BitVec.ofNat 32 b.length)])
  else none

/-- `LDDIGEST b`; none where `b` needs a cell that `DIGEST` does not have. -/
def ldDigest (b : List Byte) : Option (List HostLine) :=
  if b.length ≤ Config.digestCells then some (cellWrites 0x100 0 b) else none

/-- `RDBUF <buf>, n`, for the buffer whose cells are `cell i`; none where the buffer has fewer than `n` cells. -/
def rdBuf {size : Nat} (cell : Fin size → Loc) (n : Nat) : Option (List HostLine) :=
  if h : n ≤ size then
    some ((List.finRange n).map fun i => rdLoc (cell ⟨i.val, Nat.lt_of_lt_of_le i.isLt h⟩))
  else none

/-! ## The platform and the runner -/

/-- The offset in the block's window of a platform address; none for an address outside the window, and an access there
is no access to the block (R60, R62, I1). `base` is the open parameter `BASE` (R7, D31). -/
def blockOffset? (base addr : Nat) : Option Offset :=
  if base ≤ addr ∧ addr < base + Config.windowBytes then some (BitVec.ofNat 13 (addr - base)) else none

/-- One line run on the platform with the block at `base`: the access goes to the address `base + off` (R102, R81). An
access that is none to the block leaves the block alone. -/
def runLine (base : Nat) (line : HostLine) (s : State) : Host.Outcome State Fault Refusal :=
  match line with
  | .wr off v =>
    match blockOffset? base (base + off.toNat) with
    | some o => perform (.write o v) s
    | none => .next s
  | .rd off =>
    match blockOffset? base (base + off.toNat) with
    | some o => perform (.read o) s
    | none => .next s

/-- The runner: a host program from a start state, with the block at `base`. The end state holds the responses, among
them the data read and the bus errors, in the order of the lines (R102). -/
def runProgram (base : Nat) : List HostLine → State → Host.Outcome State Fault Refusal
  | [], s => .next s
  | line :: rest, s =>
    match runLine base line s with
    | .next t => runProgram base rest t
    | .fault r => .fault r
    | .refused r => .refused r

/-- The list of data read among the responses (R102). -/
def dataRead (rs : List Response) : List Word :=
  rs.filterMap fun
    | .data v => some v
    | .done | .busError => none

end Sys2Proof.Machine
end

