-- ==== Sys2Proof/Safety.lean ====
section
/-! DEFINITION. The terms the claims use: the invariant of spec/10_state.md R44, what each command reads and writes
(spec/30_encoding.md R95), and what a host program without a port error is (spec/60_exceptions.md R228). -/

namespace Sys2Proof.Machine

/-! ## The invariant -/

/-- The legal values of `STATUS` (R23; R223 for bit 13, which is never set beside `ERRCODE` 1). -/
abbrev StatusLegal (st : Word) : Prop :=
  st = 0x00000000 ∨ st = 0x00000001 ∨ st = 0x00000032 ∨
  (st = 0x12#32 ||| ((statusInfo st).setWidth 32 <<< 8) ∧
    statusInfo st &&& 0x0F ≠ 0 ∧ statusInfo st &&& 0xE0 = 0) ∨
  (st = 0x22#32 ||| ((statusInfo st).setWidth 32 <<< 8) ∧
    statusInfo st &&& 0x0F = 0 ∧ statusInfo st &&& 0x30 ≠ 0 ∧ statusInfo st &&& 0xC0 = 0)

/-- An ASCII digit (R15). -/
abbrev IsDigit (b : Byte) : Prop := 0x30 ≤ b.toNat ∧ b.toNat ≤ 0x39

/-- What `CODE` can look like: all zero, six digits and two zeros, or eight digits (R44 item 4). -/
abbrev CodeShape (code : Memory) : Prop :=
  (∀ i < 8, code.read i = 0) ∨
  ((∀ i < 6, IsDigit (code.read i)) ∧ code.read 6 = 0 ∧ code.read 7 = 0) ∨
  (∀ i < 8, IsDigit (code.read i))

/-- The invariant of the block (R44). Item 5, the widths, is in the types; that each buffer has no cell beyond its size
is in its canonical form. -/
structure State.Inv (s : State) : Prop where
  statusLegal : StatusLegal s.status
  olenBound : s.olen.toNat ≤ 410
  obufTail : ∀ i < Config.obufMax, s.olen.toNat ≤ i → s.obuf.read i = 0
  remainBound : s.remain.toNat ≤ 120
  offsetBound : s.offset.toNat ≤ 15
  bincodeBound : s.bincode.toNat < 2 ^ 31
  valueBound : s.value.toNat < 10 ^ 8
  codeShape : CodeShape s.code
  codeWf : Memory.Wf Config.codeCells s.code
  digestWf : Memory.Wf Config.digestCells s.digest
  keyWf : Memory.Wf Config.keyMax s.key
  ibufWf : Memory.Wf Config.ibufMax s.ibuf
  obufWf : Memory.Wf Config.obufMax s.obuf

/-! ## What the commands read and write -/

/-- The locations a command writes on success besides `STATUS` (R95, the column "Writes on success"). -/
def commandWrites (i : Instr) (l : Loc) : Bool :=
  match i with
  | .b32enc | .b32dec =>
    match l with
    | .result .olen | .obuf _ => true
    | _ => false
  | .tstep =>
    match l with
    | .operand .ctrLo | .operand .ctrHi | .result .remain => true
    | _ => false
  | .hmac =>
    match l with
    | .digest _ => true
    | _ => false
  | .dtrunc =>
    match l with
    | .result .offset | .result .bincode | .result .value | .code _ => true
    | _ => false
  | .totp =>
    match l with
    | .operand .ctrLo | .operand .ctrHi | .result .remain | .digest _ => true
    | .result .offset | .result .bincode | .result .value | .code _ => true
    | _ => false
  | .clear =>
    match l with
    | .cmd | .status => false
    | _ => true

/-- The number of `DIGEST` cells that `DTRUNC` reads: the digest length of `ALG`, 0 where `ALG` names no hash function
(R95, R140). -/
def digestCellsRead (alg : Word) : Nat :=
  match HashAlg.ofReg? alg with
  | some a => a.digestLen
  | none => 0

/-- The locations a command reads in a state (R95, the column "Reads"). -/
def commandReads (s : State) (i : Instr) (l : Loc) : Bool :=
  match i with
  | .b32enc | .b32dec =>
    match l with
    | .operand .ilen => true
    | .ibuf k => decide (k.val < s.ilen.toNat)
    | _ => false
  | .tstep =>
    match l with
    | .operand .period | .operand .timeLo | .operand .timeHi => true
    | _ => false
  | .hmac =>
    match l with
    | .operand .alg | .operand .keylen | .operand .ctrLo | .operand .ctrHi => true
    | .key k => decide (k.val < s.keylen.toNat)
    | _ => false
  | .dtrunc =>
    match l with
    | .operand .alg | .operand .digits => true
    | .digest k => decide (k.val < digestCellsRead s.alg)
    | _ => false
  | .totp =>
    match l with
    | .operand .alg | .operand .digits | .operand .period | .operand .timeLo | .operand .timeHi => true
    | .operand .keylen => true
    | .key k => decide (k.val < s.keylen.toNat)
    | _ => false
  | .clear => false

/-- When a command's operands are in contract and its lengths within the buffers: it then runs and is not rejected (R24 to
R30, R181, R221, R224). -/
abbrev InContract (i : Instr) (s : State) : Prop :=
  match i with
  | .b32enc | .b32dec => s.ilen.toNat ≤ 256
  | .tstep => 1 ≤ s.period.toNat ∧ s.period.toNat ≤ 120
  | .hmac => (1 ≤ s.alg.toNat ∧ s.alg.toNat ≤ 3) ∧ 1 ≤ s.keylen.toNat ∧ s.keylen.toNat ≤ 256
  | .dtrunc => (s.digits.toNat = 6 ∨ s.digits.toNat = 8) ∧ 1 ≤ s.alg.toNat ∧ s.alg.toNat ≤ 3
  | .totp =>
    (1 ≤ s.period.toNat ∧ s.period.toNat ≤ 120) ∧ (s.digits.toNat = 6 ∨ s.digits.toNat = 8) ∧
    (1 ≤ s.alg.toNat ∧ s.alg.toNat ≤ 3) ∧ 1 ≤ s.keylen.toNat ∧ s.keylen.toNat ≤ 256
  | .clear => True

/-- `t` differs from `s` at most at the locations `may` allows, and the host's side (what is pending, what was answered)
is the same. -/
abbrev SameExcept (may : Loc → Prop) (s t : State) : Prop :=
  (∀ l, ¬ may l → t.contents l = s.contents l) ∧ t.pending = s.pending ∧ t.responses = s.responses

/-! ## Host programs without a port error -/

/-- No access performed so far raised `BusError`: the host program has committed no fault (R228: "A model should treat a
host step that raises `BusError` as a fault of the host program"). -/
abbrev PortErrorFree (s : State) : Prop := Response.busError ∉ s.responses

/-- The reserved offsets (R61, R228). -/
abbrev ReservedOffset (off : Nat) : Prop :=
  (0x0060 ≤ off ∧ off ≤ 0x00FC) ∨ (0x0200 ≤ off ∧ off ≤ 0x03FC) ∨ (0x0C00 ≤ off ∧ off ≤ 0x0FFC) ∨
  (0x1800 ≤ off ∧ off ≤ 0x1FFC)

/-- The offsets of the read-only locations: `STATUS`, the result registers, `CODE`, `OBUF` (R61, R228). -/
abbrev ReadOnlyOffset (off : Nat) : Prop :=
  off = 0x0004 ∨ (0x002C ≤ off ∧ off ≤ 0x005C) ∨ (0x1000 ≤ off ∧ off ≤ 0x17FC)

end Sys2Proof.Machine
end

