-- ==== Sys2Proof/Certificates/Slice0/Obligations.lean ====
section
/-! DEFINITION. The statements for the provers, file by file of spec/. Each docstring names the rule it formalises. No
statement is about a value the model chose. That host accesses wait in `pending` and their answers stand in `responses`
is the model's own form of the host's side (notes/assumptions/1.md, 2.md); a statement that rests on more of it than
that says so. -/

open Sys2Proof Sys2Proof.Machine

/-! ## Encoding (spec/30_encoding.md) -/

/-- R91, R94: each command decodes from its own word, no two words are the same command, and reading the word as the
opcode table numbers its bits gives the same command. -/
def Obligations.DecodeAndEncodeAgree : Prop :=
  (∀ i : Instr, i.wellFormed = true → decode (encode i) = .ok i) ∧
  (∀ (w : Word) (i : Instr), decode w = .ok i → encode i = w) ∧
  (∀ i : Instr, i.wellFormed = true → decodeTableWord 32 (encode i).toNat = some i)

/-- R91, written out: the seven words of the opcode map. -/
def Obligations.OpcodeMapWordsDecode : Prop :=
  decode 0x00000001 = .ok .b32enc ∧ decode 0x00000002 = .ok .b32dec ∧ decode 0x00000010 = .ok .tstep ∧
  decode 0x00000011 = .ok .hmac ∧ decode 0x00000012 = .ok .dtrunc ∧ decode 0x00000013 = .ok .totp ∧
  decode 0x00000020 = .ok .clear ∧ decode 0x00000000 = .error .unassignedOpcode

/-- R92, R93: a word decodes exactly when it is well formed; a word with a non-zero `RSV` is rejected for that, whatever
its opcode, and every other word that is no command for its opcode. -/
def Obligations.IllegalWordsAreRejectedByName : Prop :=
  ∀ w : Word,
    ((∃ i, decode w = .ok i) ↔ wordWellFormed w = true) ∧
    (decode w = .error .reservedBits ↔ w.toNat / 2 ^ 8 ≠ 0) ∧
    (decode w = .error .unassignedOpcode ↔ w.toNat / 2 ^ 8 = 0 ∧
      ¬ (w.toNat = 0x01 ∨ w.toNat = 0x02 ∨ (0x10 ≤ w.toNat ∧ w.toNat ≤ 0x13) ∨ w.toNat = 0x20))

/-! ## The host port (spec/20_memory.md, spec/60_exceptions.md section 4) -/

/-- R61 with the offsets of R22 to R40: the offset of every register and every cell, one location for each offset that is
not reserved, and no location at a reserved one. -/
def Obligations.AddressMapIsOneToOne : Prop :=
  (Loc.byteOffset .cmd = 0x000 ∧ Loc.byteOffset .status = 0x004 ∧
    (∀ r : OperandReg, Loc.byteOffset (.operand r) = match r with
      | .alg => 0x008 | .digits => 0x00C | .period => 0x010 | .timeLo => 0x014 | .timeHi => 0x018
      | .ctrLo => 0x01C | .ctrHi => 0x020 | .keylen => 0x024 | .ilen => 0x028) ∧
    (∀ r : ResultReg, Loc.byteOffset (.result r) = match r with
      | .olen => 0x02C | .remain => 0x030 | .offset => 0x034 | .bincode => 0x038 | .value => 0x03C) ∧
    (∀ i, Loc.byteOffset (.code i) = 0x040 + 4 * i.val) ∧ (∀ i, Loc.byteOffset (.digest i) = 0x100 + 4 * i.val) ∧
    (∀ i, Loc.byteOffset (.key i) = 0x400 + 4 * i.val) ∧ (∀ i, Loc.byteOffset (.ibuf i) = 0x800 + 4 * i.val) ∧
    (∀ i, Loc.byteOffset (.obuf i) = 0x1000 + 4 * i.val)) ∧
  (∀ l : Loc, l.byteOffset < 0x2000 ∧ l.byteOffset % 4 = 0 ∧ locate l.byteOffset = some l) ∧
  (∀ (off : Nat) (l : Loc), off % 4 = 0 → locate off = some l → l.byteOffset = off) ∧
  (∀ off : Nat, off < 0x2000 → off % 4 = 0 → (locate off = none ↔ ReservedOffset off))

/-- R66, R69: a read returns a register's value, a cell's byte zero-extended, and 0 for a `KEY` cell; it changes nothing
but the port's response. -/
def Obligations.ReadsReturnContentsAndChangeNothing : Prop :=
  ∀ (s : State) (l : Loc),
    perform (.read l.portOffset) s = .next (s.respond (.data
      (match l with
        | .key _ => 0
        | .code i => (s.code.read i).setWidth 32
        | .digest i => (s.digest.read i).setWidth 32
        | .ibuf i => (s.ibuf.read i).setWidth 32
        | .obuf i => (s.obuf.read i).setWidth 32
        | .cmd => s.cmd
        | .status => s.status
        | .operand r => s.operand r
        | .result r => s.result r)))

/-- R228: an access raises `BusError`, and then changes no state at all, in exactly the cases of R63, R64 and R65. (That
the step then goes on, with the error among the responses, is notes/assumptions/3.md.) -/
def Obligations.BusErrorInExactlyTheseCases : Prop :=
  ∀ (off : Offset) (v : Word) (s : State),
    (perform (.read off) s = .next (s.respond .busError) ↔ off.toNat % 4 ≠ 0 ∨ ReservedOffset off.toNat) ∧
    (perform (.write off v) s = .next (s.respond .busError) ↔
      off.toNat % 4 ≠ 0 ∨ ReservedOffset off.toNat ∨ ReadOnlyOffset off.toNat)

/-- R67, R70: a write to an operand register stores all 32 bits, whatever they are, and does nothing else. -/
def Obligations.OperandWriteStoresTheWholeWord : Prop :=
  ∀ (s : State) (r : OperandReg) (v : Word),
    ∃ t, perform (.write (Loc.operand r).portOffset v) s = .next t ∧
      t.contents (.operand r) = v ∧
      (∀ l, l ≠ .operand r → t.contents l = s.contents l) ∧
      t.pending = s.pending ∧ t.responses = s.responses ++ [.done]

/-- R68: a write to a cell of `DIGEST`, `KEY` or `IBUF` stores `v[7:0]`, whatever `v[31:8]` is, and does nothing else. -/
def Obligations.CellWriteStoresTheLowByte : Prop :=
  ∀ (s : State) (l : Loc) (v : Word), s.Inv →
    ((∃ i, l = .digest i) ∨ (∃ i, l = .key i) ∨ (∃ i, l = .ibuf i)) →
    ∃ t, perform (.write l.portOffset v) s = .next t ∧
      (t.contents l).toNat = v.toNat % 2 ^ 8 ∧
      (∀ l', l' ≠ l → t.contents l' = s.contents l') ∧
      t.pending = s.pending ∧ t.responses = s.responses ++ [.done]

/-- R22: a read of `CMD` returns the last word written, legal or not, whatever the command did. -/
def Obligations.CmdReadsBackTheLastWordWritten : Prop :=
  ∀ (s : State) (v : Word),
    ∃ t u, perform (.write (Loc.portOffset .cmd) v) s = .next t ∧
      perform (.read (Loc.portOffset .cmd)) t = .next u ∧
      u.responses = s.responses ++ [.done, .data v]

/-- R74, R76: a read of an operand register or a readable, writable cell right after a write returns what was written. -/
def Obligations.ReadReturnsTheLastWrite : Prop :=
  ∀ (s : State) (l : Loc) (v : Word), s.Inv →
    ((∃ r, l = .operand r) ∨ (∃ i, l = .digest i) ∨ (∃ i, l = .ibuf i)) →
    ∃ t u, perform (.write l.portOffset v) s = .next t ∧ perform (.read l.portOffset) t = .next u ∧
      u.responses = s.responses ++
        [.done, .data (match l with | .operand _ => v | _ => BitVec.ofNat 32 (v.toNat % 2 ^ 8))]

/-- R38, R69: what a read answers does not depend on what `KEY` holds, and a read of a `KEY` cell answers 0: the port never
gives the key back. -/
def Obligations.NoPortReadDependsOnTheKey : Prop :=
  ∀ (s : State) (other : Memory) (off : Offset),
    readResponse off { s with key := other } = readResponse off s ∧
    (∀ i : Fin Config.keyMax, readResponse (Loc.portOffset (.key i)) s = .data 0)

/-- R78: the two halves of `TIME` may be written in either order. -/
def Obligations.TimeHalvesInEitherOrder : Prop :=
  ∀ (s : State) (lo hi : Word),
    ∃ a b t, perform (.write (Loc.portOffset (.operand .timeLo)) lo) s = .next a ∧
      perform (.write (Loc.portOffset (.operand .timeHi)) hi) a = .next t ∧
      perform (.write (Loc.portOffset (.operand .timeHi)) hi) s = .next b ∧
      perform (.write (Loc.portOffset (.operand .timeLo)) lo) b = .next t ∧
      t.time.toNat = hi.toNat * 2 ^ 32 + lo.toNat

/-! ## The step (spec/20_memory.md section 4) -/

/-- R22, R73: when the next host access writes to `CMD` a word that decodes to a command, the step stores the word and is
the execution of that command at that state; around it the step takes the access from what is pending and adds the
port's answer, nothing else. -/
def Obligations.StepRunsTheDecodedCommand : Prop :=
  ∀ (s : State) (w : Word) (i : Instr) (rest : List HostEvent),
    s.pending = .write (Loc.portOffset .cmd) w :: rest → decode w = .ok i →
    ∃ t, exec i { s with pending := rest, cmd := w } = .next t ∧
      step s = .next { t with responses := t.responses ++ [.done] }

/-- R225, R93: a write of any other word stores it, sets `STATUS` to 0x00000032 and changes nothing else. -/
def Obligations.IllegalWordOnlySetsCmdAndStatus : Prop :=
  ∀ (s : State) (w : Word) (rest : List HostEvent),
    s.pending = .write (Loc.portOffset .cmd) w :: rest →
    ¬ (w = 0x01 ∨ w = 0x02 ∨ w = 0x10 ∨ w = 0x11 ∨ w = 0x12 ∨ w = 0x13 ∨ w = 0x20) →
    step s = .next { s with
      pending := rest, cmd := w, status := 0x00000032, responses := s.responses ++ [.done] }

/-- R73, R74, R270: a step takes exactly the first pending event, and an access gets exactly one more response. Clauses
that are the model's and no rule's: that pending events and responses are held in State (notes/assumptions/1.md, 2.md);
that an access that raises `BusError` still ends in a next state (notes/assumptions/3.md, DEDUCED); that a step with
nothing pending changes nothing (notes/assumptions/4.md, DEDUCED). -/
def Obligations.AccessesAreAnsweredInOrder : Prop :=
  ∀ s : State, ∃ t, step s = .next t ∧ t.pending = s.pending.tail ∧
    (match s.pending with
      | .read _ :: _ => ∃ r, t.responses = s.responses ++ [r] ∧ r ≠ .done
      | .write _ _ :: _ => ∃ r, t.responses = s.responses ++ [r] ∧ (r = .done ∨ r = .busError)
      | .reset :: _ => t.responses = s.responses
      | [] => t = s)

/-- R70: running a command twice leaves the state that running it once leaves. -/
def Obligations.RunningACommandTwiceIsRunningItOnce : Prop :=
  ∀ (i : Instr) (s t : State), exec i s = .next t → exec i t = .next t

/-! ## Reset and the invariant (spec/10_state.md sections 7 and 8, spec/70_reset_and_hazards.md) -/

/-- R43, R250: a reset puts every location at zero, and nothing of the block's state before it survives. That a reset is
one event between two accesses (notes/assumptions/5.md, DEDUCED) and leaves the host's pending accesses and responses
as they were (notes/assumptions/1.md, DESIGN CHOICE) is the model's. -/
def Obligations.ResetZeroesEveryLocation : Prop :=
  ∀ (s : State) (rest : List HostEvent), s.pending = .reset :: rest →
    ∃ t, step s = .next t ∧ (∀ l, t.contents l = 0) ∧
      t = { State.reset with pending := rest, responses := s.responses }

/-- R253, R43: straight after reset the codec commands and `CLEAR` succeed, the engine commands are rejected, and `STATUS`
tells each failing check. -/
def Obligations.CommandsStraightAfterReset : Prop :=
  ∀ i : Instr,
    let st : Word := match i with
      | .b32enc | .b32dec | .clear => 0x00000001
      | .tstep => 0x00000112
      | .hmac => 0x00000C12
      | .dtrunc => 0x00000612
      | .totp => 0x00000F12
    exec i State.reset = .next { State.reset with status := st }

/-- R44: the reset state meets the invariant. -/
def Obligations.ResetStateMeetsTheInvariant : Prop := State.Inv State.reset

/-- R44, and the canonical form of the buffers: from every state that meets the invariant every step leads to one that
meets it. -/
def Obligations.EveryStepKeepsTheInvariant : Prop :=
  ∀ s t : State, s.Inv → step s = .next t → t.Inv

/-! ## Errors (spec/60_exceptions.md) -/

/-- R226: each bit of the check mask, and what each command needs. -/
def Obligations.ArgMaskBitsAndNeeds : Prop :=
  (∀ (needs : List Need) (s : State),
    ((argMask needs s).getLsbD 0 = true ↔ .period ∈ needs ∧ (s.period.toNat = 0 ∨ 120 < s.period.toNat)) ∧
    ((argMask needs s).getLsbD 1 = true ↔ .digits ∈ needs ∧ s.digits.toNat ≠ 6 ∧ s.digits.toNat ≠ 8) ∧
    ((argMask needs s).getLsbD 2 = true ↔ .alg ∈ needs ∧ (s.alg.toNat = 0 ∨ 3 < s.alg.toNat)) ∧
    ((argMask needs s).getLsbD 3 = true ↔ .secret ∈ needs ∧ s.keylen.toNat = 0) ∧
    ((argMask needs s).getLsbD 4 = true ↔ .secret ∈ needs ∧ 256 < s.keylen.toNat) ∧
    ((argMask needs s).getLsbD 5 = true ↔ .ibuf ∈ needs ∧ 256 < s.ilen.toNat)) ∧
  (∀ i : Instr, ∀ n : Need, n ∈ commandNeeds i ↔
    match i, n with
      | .b32enc, .ibuf | .b32dec, .ibuf => True
      | .tstep, .period => True
      | .hmac, .alg | .hmac, .secret => True
      | .dtrunc, .digits | .dtrunc, .alg => True
      | .totp, .period | .totp, .digits | .totp, .alg | .totp, .secret => True
      | _, _ => False)

/-- R222: a command whose checks fail writes `STATUS` as the rule computes it from the mask, and nothing else. -/
def Obligations.RejectedCommandWritesOnlyStatus : Prop :=
  ∀ (i : Instr) (s : State), argMask (commandNeeds i) s ≠ 0 →
    let m := argMask (commandNeeds i) s
    let st := if m &&& 0x0F ≠ 0 then 0x00000012#32 ||| (m.setWidth 32 <<< 8) else 0x00000022#32 ||| (m.setWidth 32 <<< 8)
    exec i s = .next { s with status := st }

/-- R221, R224, R226, R231: a command succeeds exactly when its operands are in contract and its lengths within the
buffers; otherwise `ERR` is set, `DONE` is clear and only `STATUS` has changed. -/
def Obligations.CommandSucceedsExactlyInContract : Prop :=
  ∀ (i : Instr) (s : State),
    (InContract i s → ∃ t, exec i s = .next t ∧ t.status = 0x00000001) ∧
    (¬ InContract i s → ∃ t, exec i s = .next t ∧ statusErr t.status = true ∧ statusDone t.status = false ∧
      t = { s with status := t.status })

/-- R224: capacity alone. -/
def Obligations.CapacityErrorStatusWords : Prop :=
  ∀ s : State,
    (256 < s.keylen.toNat → 1 ≤ s.alg.toNat → s.alg.toNat ≤ 3 →
      exec .hmac s = .next { s with status := 0x00001022 }) ∧
    (256 < s.keylen.toNat → 1 ≤ s.alg.toNat → s.alg.toNat ≤ 3 → s.digits.toNat = 6 ∨ s.digits.toNat = 8 →
      1 ≤ s.period.toNat → s.period.toNat ≤ 120 → exec .totp s = .next { s with status := 0x00001022 }) ∧
    (256 < s.ilen.toNat → exec .b32enc s = .next { s with status := 0x00002022 } ∧
      exec .b32dec s = .next { s with status := 0x00002022 })

/-- R23, R223: whatever state a command starts from, it leaves one of the legal values in `STATUS`, never both `DONE` and
`ERR`, and one of the two. -/
def Obligations.EveryCommandLeavesALegalStatus : Prop :=
  ∀ (i : Instr) (s t : State), exec i s = .next t →
    StatusLegal t.status ∧ (statusDone t.status = true ↔ statusErr t.status = false) ∧
    (statusErrcode t.status).toNat ≤ 2

/-! ## The codec (spec/40_base32_codec.md) -/

/-- R113, R114: exactly the bytes 0x32 to 0x37, 0x41 to 0x5A and 0x61 to 0x7A are kept, with these values. -/
def Obligations.KeptCharactersAndTheirValues : Prop :=
  ∀ c : Byte, val (upper c) =
    if 0x41 ≤ c.toNat ∧ c.toNat ≤ 0x5A then some (c.toNat - 0x41)
    else if 0x61 ≤ c.toNat ∧ c.toNat ≤ 0x7A then some (c.toNat - 0x61)
    else if 0x32 ≤ c.toNat ∧ c.toNat ≤ 0x37 then some (c.toNat - 0x32 + 26)
    else none

/-- R121 with R111, R112: `B32ENC` writes the text of the bitstream of `IBUF[0..ILEN)`, most significant bit first, short
group padded with zeros, then zeros; or it is rejected. -/
def Obligations.EncodeCommandWritesTheText : Prop :=
  ∀ s : State,
    let n := s.ilen.toNat
    let bit := fun k => if k < 8 * n then ((s.ibuf.read (k / 8)).getLsbD (7 - k % 8)).toNat else 0
    (n ≤ 256 → ∃ t, exec .b32enc s = .next t ∧ t.status = 0x00000001 ∧
      t.olen.toNat = (8 * n + 4) / 5 ∧
      (∀ j < (8 * n + 4) / 5, t.obuf.read j = alpha
        (bit (5 * j) * 16 + bit (5 * j + 1) * 8 + bit (5 * j + 2) * 4 + bit (5 * j + 3) * 2 + bit (5 * j + 4))) ∧
      (∀ j, (8 * n + 4) / 5 ≤ j → t.obuf.read j = 0) ∧
      SameExcept (fun l => l = .status ∨ l = .result .olen ∨ ∃ i, l = .obuf i) s t) ∧
    (256 < n → exec .b32enc s = .next { s with status := 0x00002022 })

/-- R122 with R113 to R116: `B32DEC` writes the bytes of the bitstream of the kept values, trailing bits dropped, then
zeros; or it is rejected. -/
def Obligations.DecodeCommandWritesTheBytes : Prop :=
  ∀ s : State,
    let n := s.ilen.toNat
    let w := (List.range n).filterMap fun i => val (upper (s.ibuf.read i))
    let sbit := fun k => ((w.getD (k / 5) 0).testBit (4 - k % 5)).toNat
    (n ≤ 256 → ∃ t, exec .b32dec s = .next t ∧ t.status = 0x00000001 ∧
      t.olen.toNat = 5 * w.length / 8 ∧
      (∀ i < 5 * w.length / 8, (t.obuf.read i).toNat =
        sbit (8 * i) * 128 + sbit (8 * i + 1) * 64 + sbit (8 * i + 2) * 32 + sbit (8 * i + 3) * 16 +
        sbit (8 * i + 4) * 8 + sbit (8 * i + 5) * 4 + sbit (8 * i + 6) * 2 + sbit (8 * i + 7)) ∧
      (∀ i, 5 * w.length / 8 ≤ i → t.obuf.read i = 0) ∧
      SameExcept (fun l => l = .status ∨ l = .result .olen ∨ ∃ i, l = .obuf i) s t) ∧
    (256 < n → exec .b32dec s = .next { s with status := 0x00002022 })

/-- R118: decoding an encoded byte sequence of any length gives it back. -/
def Obligations.DecodeOfEncodeIsTheInput : Prop := ∀ b : List Byte, b32Dec (b32Enc b) = b

/-- R120: the streaming form gives the same output for every input. -/
def Obligations.StreamingFormEqualsTheDefinition : Prop :=
  (∀ b : List Byte, b32EncStream b = b32Enc b) ∧ (∀ t : List Byte, b32DecStream t = b32Dec t)

/-- R119: changing the case of letters, and inserting characters outside the alphabet anywhere, does not change what a
text decodes to. -/
def Obligations.DecodeIgnoresCaseAndForeignCharacters : Prop :=
  (∀ t t' : List Byte,
    List.Forall₂ (fun c c' : Byte => c = c' ∨
      (0x41 ≤ c.toNat ∧ c.toNat ≤ 0x5A ∧ c'.toNat = c.toNat + 0x20) ∨
      (0x41 ≤ c'.toNat ∧ c'.toNat ≤ 0x5A ∧ c.toNat = c'.toNat + 0x20)) t t' → b32Dec t = b32Dec t') ∧
  (∀ (t u : List Byte) (c : Byte),
    ¬ ((0x32 ≤ c.toNat ∧ c.toNat ≤ 0x37) ∨ (0x41 ≤ c.toNat ∧ c.toNat ≤ 0x5A) ∨
      (0x61 ≤ c.toNat ∧ c.toNat ≤ 0x7A)) → b32Dec (t ++ c :: u) = b32Dec (t ++ u))

/-- R112, R121: the length of an encoded text, and that it holds uppercase alphabet characters only. -/
def Obligations.EncodedTextIsInTheAlphabet : Prop :=
  ∀ b : List Byte,
    (b32Enc b).length = (8 * b.length + 4) / 5 ∧
    ((b32Enc b).length % 8 = 0 ∨ (b32Enc b).length % 8 = 2 ∨ (b32Enc b).length % 8 = 4 ∨
      (b32Enc b).length % 8 = 5 ∨ (b32Enc b).length % 8 = 7) ∧
    ∀ c ∈ b32Enc b, (0x41 ≤ c.toNat ∧ c.toNat ≤ 0x5A) ∨ (0x32 ≤ c.toNat ∧ c.toNat ≤ 0x37)

/-- R124: encoding a decoded text gives the text back only when it has no discarded character, no lowercase letter, one of
five lengths modulo 8, and zero trailing bits; and the two examples where it does not. -/
def Obligations.EncodeOfDecodeOnlyOnCanonicalText : Prop :=
  (∀ t : List Byte, b32Enc (b32Dec t) = t →
    (∀ c ∈ t, (0x41 ≤ c.toNat ∧ c.toNat ≤ 0x5A) ∨ (0x32 ≤ c.toNat ∧ c.toNat ≤ 0x37)) ∧
    (t.length % 8 = 0 ∨ t.length % 8 = 2 ∨ t.length % 8 = 4 ∨ t.length % 8 = 5 ∨ t.length % 8 = 7) ∧
    (∀ k, 8 * (5 * t.length / 8) ≤ k → k < 5 * t.length → decBit (keptValues t) k = 0)) ∧
  (b32Dec [0x4D, 0x5A] = [0x66] ∧ b32Enc [0x66] = [0x4D, 0x59]) ∧
  (b32Dec [0x37] = [] ∧ b32Enc [] = [])

/-- R123, R31, R40: after a successful codec command `OLEN` is at most 410, or 160, no cell of `OBUF` at or beyond `OLEN`
holds anything, and the list of cells is in canonical form with none beyond `OBUF_MAX` (notes/assumptions/12.md). -/
def Obligations.CodecOutputFitsTheBuffer : Prop :=
  ∀ s t : State,
    (exec .b32enc s = .next t → statusDone t.status = true →
      t.olen.toNat ≤ 410 ∧ (∀ i, t.olen.toNat ≤ i → t.obuf.read i = 0) ∧ Memory.Wf 512 t.obuf) ∧
    (exec .b32dec s = .next t → statusDone t.status = true →
      t.olen.toNat ≤ 160 ∧ (∀ i, t.olen.toNat ≤ i → t.obuf.read i = 0) ∧ Memory.Wf 512 t.obuf)

/-! ## Hash functions and HMAC (spec/41_hmac_hash.md) -/

/-- R24, R97, R140: the numbers of `ALG`, and the parameter table. -/
def Obligations.AlgorithmNumbersAndLengths : Prop :=
  (∀ (v : Word) (a : HashAlg), HashAlg.ofReg? v = some a ↔
    v.toNat = (match a with | .sha1 => 1 | .sha256 => 2 | .sha512 => 3)) ∧
  (∀ a : HashAlg, (a.digestLen, a.blockLen, a.lengthField) =
    match a with | .sha1 => (20, 64, 8) | .sha256 => (32, 64, 8) | .sha512 => (64, 128, 16))

/-- R141: the padded message is the message, 0x80, the fewest zeros that fill the last block, and the length in bits, most
significant byte first. -/
def Obligations.PaddingFillsWholeBlocks : Prop :=
  ∀ (a : HashAlg) (m : List Byte), 8 * m.length < 2 ^ (8 * a.lengthField) →
    ∃ k : Nat, (padMessage a m).length = m.length + 1 + k + a.lengthField ∧
      (m.length + 1 + k + a.lengthField) % a.blockLen = 0 ∧ k < a.blockLen ∧
      (padMessage a m).take m.length = m ∧
      (padMessage a m).getD m.length 0 = 0x80 ∧
      (∀ j < k, (padMessage a m).getD (m.length + 1 + j) 1 = 0) ∧
      beNat ((padMessage a m).drop (m.length + 1 + k)) = 8 * m.length

/-- R156, R140: a digest has the digest length of its hash function. -/
def Obligations.DigestHasItsLength : Prop :=
  ∀ (a : HashAlg) (m : List Byte), (hashOf a m).length = match a with | .sha1 => 20 | .sha256 => 32 | .sha512 => 64

/-- R145, R150, R155: the check values, the digests of "abc", and of the empty message for SHA1. -/
def Obligations.HashCheckValues : Prop :=
  beNat (hashOf .sha1 [0x61, 0x62, 0x63]) = 0xA9993E364706816ABA3E25717850C26C9CD0D89D ∧
  beNat (hashOf .sha1 []) = 0xDA39A3EE5E6B4B0D3255BFEF95601890AFD80709 ∧
  beNat (hashOf .sha256 [0x61, 0x62, 0x63]) = 0xBA7816BF8F01CFEA414140DE5DAE2223B00361A396177A9CB410FF61F20015AD ∧
  beNat (hashOf .sha512 [0x61, 0x62, 0x63]) =
    0xDDAF35A193617ABACC417349AE20413112E6FA4E89A97EA20A9EEEE64B55D39A2192992A274FC1A836BA3C23A3FEEBBD454D4423643CE80E2A9AC94FA54CA49F

/-- R159: a key and the same key with a zero byte appended give the same digest while both fit one block, and a key longer
than one block acts as its own hash. -/
def Obligations.HmacKeyLengthClasses : Prop :=
  ∀ (a : HashAlg) (key msg : List Byte),
    (1 ≤ key.length → key.length < a.blockLen → hmac a (key ++ [0]) msg = hmac a key msg) ∧
    (a.blockLen < key.length → hmac a key msg = hmac a (hashOf a key) msg)

/-- R161 with R158, R160: `HMAC` writes the digest of the 8-byte big-endian counter under `KEY[0..KEYLEN)`, then zeros; or
it is rejected with every failing check. -/
def Obligations.HmacCommandWritesTheDigest : Prop :=
  ∀ s : State,
    (∀ a : HashAlg, HashAlg.ofReg? s.alg = some a → 1 ≤ s.keylen.toNat → s.keylen.toNat ≤ 256 →
      let c := s.ctrHi.toNat * 2 ^ 32 + s.ctrLo.toNat
      let d := hmac a ((List.range s.keylen.toNat).map fun i => s.key.read i)
        ((List.range 8).map fun i => BitVec.ofNat 8 (c / 2 ^ (8 * (7 - i))))
      ∃ t, exec .hmac s = .next t ∧ t.status = 0x00000001 ∧
        (∀ i < a.digestLen, t.digest.read i = d.getD i 0) ∧
        (∀ i, a.digestLen ≤ i → t.digest.read i = 0) ∧
        SameExcept (fun l => l = .status ∨ ∃ i, l = .digest i) s t) ∧
    (argMask [.alg, .secret] s ≠ 0 → exec .hmac s = .next (s.reject (argMask [.alg, .secret] s)))

/-! ## The TOTP engine (spec/42_totp_engine.md) -/

/-- R193 with R182, R190: `TSTEP` writes the counter and the seconds remaining; or it is rejected. -/
def Obligations.TstepWritesCounterAndRemaining : Prop :=
  ∀ s : State,
    (1 ≤ s.period.toNat → s.period.toNat ≤ 120 →
      let time := s.timeHi.toNat * 2 ^ 32 + s.timeLo.toNat
      ∃ t, exec .tstep s = .next t ∧ t.status = 0x00000001 ∧
        t.ctrHi.toNat * 2 ^ 32 + t.ctrLo.toNat = time / s.period.toNat ∧
        t.remain.toNat = s.period.toNat - time % s.period.toNat ∧
        SameExcept (fun l => l = .status ∨ l = .operand .ctrLo ∨ l = .operand .ctrHi ∨ l = .result .remain) s t) ∧
    (s.period.toNat = 0 ∨ 120 < s.period.toNat → exec .tstep s = .next { s with status := 0x00000112 })

/-- R194 with R185 to R189: `DTRUNC` on whatever `DIGEST` holds; or it is rejected with every failing check. -/
def Obligations.DtruncExtractsTheDigits : Prop :=
  ∀ s : State,
    (∀ a : HashAlg, HashAlg.ofReg? s.alg = some a → s.digits.toNat = 6 ∨ s.digits.toNat = 8 →
      let d := fun i => (s.digest.read i).toNat
      let off := d (a.digestLen - 1) % 16
      let bin := (d off * 2 ^ 24 + d (off + 1) * 2 ^ 16 + d (off + 2) * 2 ^ 8 + d (off + 3)) % 2 ^ 31
      let value := bin % 10 ^ s.digits.toNat
      ∃ t, exec .dtrunc s = .next t ∧ t.status = 0x00000001 ∧
        t.offset.toNat = off ∧ t.bincode.toNat = bin ∧ t.value.toNat = value ∧
        (∀ i < s.digits.toNat, (t.code.read i).toNat = 0x30 + value / 10 ^ (s.digits.toNat - 1 - i) % 10) ∧
        (∀ i, s.digits.toNat ≤ i → t.code.read i = 0) ∧
        SameExcept (fun l => l = .status ∨ l = .result .offset ∨ l = .result .bincode ∨ l = .result .value ∨
          ∃ i, l = .code i) s t) ∧
    (argMask [.digits, .alg] s ≠ 0 → exec .dtrunc s = .next (s.reject (argMask [.digits, .alg] s)))

/-- R195 with R182 to R190: `TOTP` is `ComputeCode`, all nine steps; or it is rejected with every failing check. -/
def Obligations.TotpComputesTheCode : Prop :=
  ∀ s : State,
    (∀ a : HashAlg, HashAlg.ofReg? s.alg = some a → InContract .totp s →
      let time := s.timeHi.toNat * 2 ^ 32 + s.timeLo.toNat
      let c := time / s.period.toNat
      let dig := hmac a ((List.range s.keylen.toNat).map fun i => s.key.read i)
        ((List.range 8).map fun i => BitVec.ofNat 8 (c / 2 ^ (8 * (7 - i))))
      let d := fun i => (dig.getD i 0).toNat
      let off := d (a.digestLen - 1) % 16
      let bin := (d off * 2 ^ 24 + d (off + 1) * 2 ^ 16 + d (off + 2) * 2 ^ 8 + d (off + 3)) % 2 ^ 31
      let value := bin % 10 ^ s.digits.toNat
      ∃ t, exec .totp s = .next t ∧ t.status = 0x00000001 ∧
        t.ctrHi.toNat * 2 ^ 32 + t.ctrLo.toNat = c ∧
        t.remain.toNat = s.period.toNat - time % s.period.toNat ∧
        (∀ i < a.digestLen, t.digest.read i = dig.getD i 0) ∧
        (∀ i, a.digestLen ≤ i → t.digest.read i = 0) ∧
        t.offset.toNat = off ∧ t.bincode.toNat = bin ∧ t.value.toNat = value ∧
        (∀ i < s.digits.toNat, (t.code.read i).toNat = 0x30 + value / 10 ^ (s.digits.toNat - 1 - i) % 10) ∧
        (∀ i, s.digits.toNat ≤ i → t.code.read i = 0) ∧
        SameExcept (fun l => l = .status ∨ commandWrites .totp l = true) s t) ∧
    (argMask [.period, .digits, .alg, .secret] s ≠ 0 →
      exec .totp s = .next (s.reject (argMask [.period, .digits, .alg, .secret] s)))

/-- R196: where the checks of `TOTP` pass, `TSTEP`, `HMAC`, `DTRUNC` one after the other leave exactly the state that `TOTP`
leaves. (As executions: the host's writes of the three words leave another word in `CMD`, notes/assumptions/9.md.) -/
def Obligations.StagesOneByOneEqualTotp : Prop :=
  ∀ s : State, argMask (commandNeeds .totp) s = 0 →
    ∃ a b t, exec .tstep s = .next a ∧ exec .hmac a = .next b ∧ exec .dtrunc b = .next t ∧ exec .totp s = .next t

/-- R198: after a successful `TSTEP` or `TOTP`, `1 <= REMAIN <= PERIOD`. -/
def Obligations.RemainIsBetweenOneAndPeriod : Prop :=
  ∀ (i : Instr) (s t : State), i = .tstep ∨ i = .totp → exec i s = .next t → statusDone t.status = true →
    1 ≤ t.remain.toNat ∧ t.remain.toNat ≤ t.period.toNat

/-- R197, R189, R36: after a successful `DTRUNC` or `TOTP` the first `DIGITS` cells of `CODE` are ASCII digits that spell
`VALUE`, and the others are zero. -/
def Obligations.CodeSpellsTheValue : Prop :=
  ∀ (i : Instr) (s t : State), i = .dtrunc ∨ i = .totp → exec i s = .next t → statusDone t.status = true →
    (t.digits.toNat = 6 ∨ t.digits.toNat = 8) ∧
    (∀ j < t.digits.toNat, IsDigit (t.code.read j)) ∧
    (∀ j, t.digits.toNat ≤ j → t.code.read j = 0) ∧
    (List.range t.digits.toNat).foldl (fun acc j => acc * 10 + ((t.code.read j).toNat - 0x30)) 0 = t.value.toNat

/-- R199: on the two sides of a boundary the counters are `k - 1` and `k` and the HMAC messages differ. -/
def Obligations.CounterBoundary : Prop :=
  ∀ p k : Nat, 1 ≤ p → p ≤ 120 → 1 ≤ k → k < 2 ^ 64 →
    counterOf (k * p - 1) p = k - 1 ∧ counterOf (k * p) p = k ∧ counterBytes (k - 1) ≠ counterBytes k

/-- R199: one second later within the same period `TOTP` leaves the same state but for `TIME` itself and `REMAIN`, which is
one less. -/
def Obligations.OneSecondLaterInTheSamePeriod : Prop :=
  ∀ s s' t : State,
    s' = { s with timeLo := s'.timeLo, timeHi := s'.timeHi } →
    s'.time.toNat = s.time.toNat + 1 → s.time.toNat / s.period.toNat = s'.time.toNat / s.period.toNat →
    InContract .totp s → exec .totp s = .next t →
    ∃ t', exec .totp s' = .next t' ∧
      t' = { t with timeLo := s'.timeLo, timeHi := s'.timeHi, remain := t'.remain } ∧
      t'.remain.toNat + 1 = t.remain.toNat

/-- R200: `HMAC` then `DTRUNC` on the counter the host wrote give what `TOTP` gives for that counter as the time with period
1, and look at neither `PERIOD` nor `TIME`. -/
def Obligations.CounterDrivenUse : Prop :=
  ∀ s : State, InContract .hmac s → InContract .dtrunc s →
    ∃ a b t, exec .hmac s = .next a ∧ exec .dtrunc a = .next b ∧
      exec .totp { s with period := 1, timeLo := s.ctrLo, timeHi := s.ctrHi } = .next t ∧
      b.digest = t.digest ∧ b.offset = t.offset ∧ b.bincode = t.bincode ∧ b.value = t.value ∧ b.code = t.code ∧
      b.ctrLo = s.ctrLo ∧ b.ctrHi = s.ctrHi ∧ b.period = s.period ∧ b.timeLo = s.timeLo ∧ b.timeHi = s.timeHi

/-! ## CLEAR (spec/43_control.md) -/

/-- R210: the state after `CLEAR` is the reset state but for `CMD` and `STATUS` (and the host's side). -/
def Obligations.ClearLeavesTheResetState : Prop :=
  ∀ s : State, exec .clear s = .next { State.reset with
    cmd := s.cmd, status := 0x00000001, pending := s.pending, responses := s.responses }

/-! ## All commands together -/

/-- R95, the column of writes, R77, R231: a command changes no location but `STATUS` and those of its row, and a command
that does not succeed none but `STATUS`. -/
def Obligations.CommandsWriteOnlyTheirResults : Prop :=
  ∀ (i : Instr) (s t : State), exec i s = .next t →
    SameExcept (fun l => l = .status ∨ commandWrites i l = true) s t ∧
    (statusDone t.status = false → SameExcept (fun l => l = .status) s t)

/-- R41, R95, the column of reads: the results of a command are a function of the locations of its row alone. Two states
that agree on them get the same `STATUS` and, where the command succeeds, the same results; so no `KEY` cell at or
beyond `KEYLEN` and no `IBUF` cell at or beyond `ILEN` matters. -/
def Obligations.ResultsDependOnlyOnTheOperands : Prop :=
  ∀ (i : Instr) (s s' t t' : State),
    (∀ l, commandReads s i l = true → s.contents l = s'.contents l) →
    exec i s = .next t → exec i s' = .next t' →
    t.status = t'.status ∧
    (statusDone t.status = true → ∀ l, commandWrites i l = true → t.contents l = t'.contents l)

/-! ## Host programs (spec/30_encoding.md section 4) -/

/-- R100, R102: the encoding of a line says the whole line; and R102's two examples, `W 0010 0000001E` for `WR PERIOD, 30`
and `R 0004` for `RD STATUS`. -/
def Obligations.HostLineEncodingIsReadBack : Prop :=
  (∀ line : HostLine, parseLine (encodeLine line) = some line) ∧
  encodeLine (wrLoc (.operand .period) 30) =
    ['W', ' ', '0', '0', '1', '0', ' ', '0', '0', '0', '0', '0', '0', '1', 'E'] ∧
  encodeLine (rdLoc .status) = ['R', ' ', '0', '0', '0', '4']

/-- R102: running a host program is as many steps of the machine with its accesses pending, whatever `BASE` is. -/
def Obligations.RunnerIsTheMachineForEveryBase : Prop :=
  ∀ (base : Nat) (prog : List HostLine) (s : State), s.pending = [] →
    Host.Core.run Sys2Proof.core prog.length { s with pending := prog.map HostLine.event } = runProgram base prog s

/-- R101, R263: `LDKEY b` writes the bytes to `KEY` and the length to `KEYLEN`, and nothing else; the cells beyond keep
what they held, and no access of it raises `BusError`. -/
def Obligations.LoadKeyWritesTheSecret : Prop :=
  ∀ (base : Nat) (s : State) (b : List Byte), s.Inv → b.length ≤ 256 →
    ∃ prog t, ldKey b = some prog ∧ runProgram base prog s = .next t ∧
      t.secret = b ∧ t.keylen.toNat = b.length ∧
      (∀ i, b.length ≤ i → t.key.read i = s.key.read i) ∧
      (∀ l, l ≠ .operand .keylen → (∀ i, l ≠ .key i) → t.contents l = s.contents l) ∧
      (PortErrorFree s → PortErrorFree t)

/-- R101: `LDIBUF b` writes the bytes to `IBUF` and the length to `ILEN`, `LDDIGEST b` writes the bytes to `DIGEST`, and
nothing else; no access of them raises `BusError`. -/
def Obligations.LoadInputAndDigestWriteTheirBuffers : Prop :=
  ∀ (base : Nat) (s : State) (b : List Byte), s.Inv →
    (b.length ≤ 256 → ∃ prog t, ldIbuf b = some prog ∧ runProgram base prog s = .next t ∧
      t.codecInput = b ∧ t.ilen.toNat = b.length ∧
      (∀ i, b.length ≤ i → t.ibuf.read i = s.ibuf.read i) ∧
      (∀ l, l ≠ .operand .ilen → (∀ i, l ≠ .ibuf i) → t.contents l = s.contents l) ∧
      (PortErrorFree s → PortErrorFree t)) ∧
    (b.length ≤ 64 → ∃ prog t, ldDigest b = some prog ∧ runProgram base prog s = .next t ∧
      t.digest.bytes b.length = b ∧
      (∀ i, b.length ≤ i → t.digest.read i = s.digest.read i) ∧
      (∀ l, (∀ i, l ≠ .digest i) → t.contents l = s.contents l) ∧
      (PortErrorFree s → PortErrorFree t))

/-- R101, R27, R28: `WR64 TIME, v` and `WR64 CTR, v` write the 64-bit value to the pair, and nothing else. -/
def Obligations.WritePairWritesTheValue : Prop :=
  ∀ (base : Nat) (s : State) (v : DWord),
    (∃ t, runProgram base (wr64Time v) s = .next t ∧ t.timeHi.toNat * 2 ^ 32 + t.timeLo.toNat = v.toNat ∧
      ∀ l, l ≠ .operand .timeLo → l ≠ .operand .timeHi → t.contents l = s.contents l) ∧
    (∃ t, runProgram base (wr64Ctr v) s = .next t ∧ t.ctrHi.toNat * 2 ^ 32 + t.ctrLo.toNat = v.toNat ∧
      ∀ l, l ≠ .operand .ctrLo → l ≠ .operand .ctrHi → t.contents l = s.contents l)

/-- R101, R102, R69: `RDBUF` of `CODE`, `DIGEST`, `IBUF` or `OBUF` reads the bytes of the first `n` cells, in order; `RDBUF`
of `KEY` reads `n` zeros, whatever the cells hold. -/
def Obligations.ReadBufferReturnsTheBytes : Prop :=
  ∀ (base n : Nat) (s : State),
    let reads := fun (prog : Option (List HostLine)) (data : List Word) => ∃ p t, prog = some p ∧
      runProgram base p s = .next t ∧ dataRead t.responses = dataRead s.responses ++ data
    let bytes := fun (m : Memory) => (List.range n).map fun i => (m.read i).setWidth 32
    (n ≤ 8 → reads (rdBuf .code n) (bytes s.code)) ∧ (n ≤ 64 → reads (rdBuf .digest n) (bytes s.digest)) ∧
    (n ≤ 256 → reads (rdBuf .ibuf n) (bytes s.ibuf)) ∧ (n ≤ 512 → reads (rdBuf .obuf n) (bytes s.obuf)) ∧
    (n ≤ 256 → reads (rdBuf .key n) (List.replicate n 0))

/-! ## The HMAC construction (spec/41_hmac_hash.md R158, spec/95_test_vectors.md) -/

/-- R158: the key, hashed first if it is longer than one block and then zero-extended to one block, under the pads 0x36 and
0x5C, and the two nested hashes. -/
def Obligations.HmacIsTheNestedHash : Prop :=
  ∀ (a : HashAlg) (key msg : List Byte), 1 ≤ key.length →
    let size : Nat := match a with
      | .sha1 => 64
      | .sha256 => 64
      | .sha512 => 128
    let short := if size < key.length then hashOf a key else key
    let whole := short ++ List.replicate (size - short.length) 0
    let ipad := (List.range size).map fun i => whole.getD i 0 ^^^ 0x36
    let opad := (List.range size).map fun i => whole.getD i 0 ^^^ 0x5C
    whole.length = size ∧ hmac a key msg = hashOf a (opad ++ hashOf a (ipad ++ msg))

/-- The digests of vectors H1, V4, V5 (keys of ASCII digits, counter 1), H10, H11, H12, and K3, K4, K6, K7, K9, K10 (keys
of exactly one block and of one byte more) of spec/95_test_vectors.md. Every hash in them runs over two blocks or more. -/
def Obligations.HmacCheckValues : Prop :=
  beNat (hmac .sha1 ((List.range 20).map fun i => BitVec.ofNat 8 (0x30 + (i + 1) % 10)) [0, 0, 0, 0, 0, 0, 0, 1]) =
    0x75A48A19D4CBE100644E8AC1397EEA747A2D33AB ∧
  beNat (hmac .sha256 ((List.range 32).map fun i => BitVec.ofNat 8 (0x30 + (i + 1) % 10)) [0, 0, 0, 0, 0, 0, 0, 1]) =
    0x392514C9DD4165D4709456062C78E04E16E68718515951333BDB8B26CAA3053C ∧
  beNat (hmac .sha512 ((List.range 64).map fun i => BitVec.ofNat 8 (0x30 + (i + 1) % 10)) [0, 0, 0, 0, 0, 0, 0, 1]) =
    0x6F76F324230CEFDA1D3F65309A0BADB36EFCE9528ADA64967D71E4E9D74C4AA37FE7650F931AB86DDCCC2D38962D720EE626A20FEB311B485A92E3BB0796DF28 ∧
  beNat (hmac .sha1 (List.replicate 20 0x0B) [0x48, 0x69, 0x20, 0x54, 0x68, 0x65, 0x72, 0x65]) =
    0xB617318655057264E28BC0B6FB378C8EF146BE00 ∧
  beNat (hmac .sha256 (List.replicate 20 0x0B) [0x48, 0x69, 0x20, 0x54, 0x68, 0x65, 0x72, 0x65]) =
    0xB0344C61D8DB38535CA8AFCEAF0BF12B881DC200C9833DA726E9376C2E32CFF7 ∧
  beNat (hmac .sha512 (List.replicate 20 0x0B) [0x48, 0x69, 0x20, 0x54, 0x68, 0x65, 0x72, 0x65]) =
    0x87AA7CDEA5EF619D4FF0B4241A1D6CB02379F4E2CE4EC2787AD0B30545E17CDEDAA833B7D6B8A702038B274EAEA3F4E4BE9D914EEB61F1702E696C203A126854 ∧
  beNat (hmac .sha1 ((List.range 64).map fun i => BitVec.ofNat 8 ((7 * i + 3) % 256)) [0x01, 0x23, 0x45, 0x67, 0x89, 0xAB, 0xCD, 0xEF]) =
    0x84E178EDE1828FDB98896F1EC8F0AEB7CB354839 ∧
  beNat (hmac .sha1 ((List.range 65).map fun i => BitVec.ofNat 8 ((7 * i + 3) % 256)) [0x01, 0x23, 0x45, 0x67, 0x89, 0xAB, 0xCD, 0xEF]) =
    0x6B7BB3DB98A5DFC97316D16E93DD2E325D17B960 ∧
  beNat (hmac .sha256 ((List.range 64).map fun i => BitVec.ofNat 8 ((7 * i + 3) % 256)) [0x01, 0x23, 0x45, 0x67, 0x89, 0xAB, 0xCD, 0xEF]) =
    0x7B812D7A50BFF7801FBAA78DA174A353E89FD45C45ABBC9AD9A0EB65DC4D3FA8 ∧
  beNat (hmac .sha256 ((List.range 65).map fun i => BitVec.ofNat 8 ((7 * i + 3) % 256)) [0x01, 0x23, 0x45, 0x67, 0x89, 0xAB, 0xCD, 0xEF]) =
    0xAFA71156EDDE06F31D7891F4487B3D312DF33C26609D1626080B2915773577DA ∧
  beNat (hmac .sha512 ((List.range 128).map fun i => BitVec.ofNat 8 ((7 * i + 3) % 256)) [0x01, 0x23, 0x45, 0x67, 0x89, 0xAB, 0xCD, 0xEF]) =
    0x50667CCE91C8C353CF2221AFF8EA64E519611133A5DC75A748FB60104B23B464B4FF77A4BAB69576DAFC59A011109D5401640A90C977B89FF2D5119A06B6CDDB ∧
  beNat (hmac .sha512 ((List.range 129).map fun i => BitVec.ofNat 8 ((7 * i + 3) % 256)) [0x01, 0x23, 0x45, 0x67, 0x89, 0xAB, 0xCD, 0xEF]) =
    0x6EC83D3ACB29BD312551446453DBB05AF2E0A2C75A8E46A879A0967FAEC1B4F9FA926AE35F42B81FA0F026870AF5ADDDB5E5B56840151821DA094B2E333824FB
end

