-- ==== Sys2Proof/Laws/Commands.lean ====
section
/-! SUPPORT. What each command does, said once: outside its contract it is rejected, inside it answers the state its
meaning builds. Later proofs cite these and do not unfold the commands. -/

namespace Sys2Proof.Machine

/-! ## The checks -/

/-- `ALG` names a hash function exactly when it is 1, 2 or 3. -/
theorem HashAlg.ofReg?_isSome_iff (v : Word) : (HashAlg.ofReg? v).isSome = true ↔ 1 ≤ v.toNat ∧ v.toNat ≤ 3 := by
  simp only [HashAlg.ofReg?, ← BitVec.toNat_inj]
  split_ifs with h1 h2 h3
  · simp_all
  · simp_all
  · simp_all
  · simp_all; omega

/-- A command's checks all pass exactly when its operands are in contract. -/
theorem argMask_eq_zero_iff (i : Instr) (s : State) : argMask (commandNeeds i) s = 0 ↔ InContract i s := by
  cases i <;>
    simp only [argMask, commandNeeds, InContract, periodBad, digitsBad, algBad, secretEmpty, keylenOver, ilenOver,
      Config.keyMax, Config.ibufMax] <;>
    split_ifs <;> simp_all <;> omega

theorem checked_of_inContract {i : Instr} {s : State} (h : InContract i s) (body : State → State) :
    checked i s body = .next (body s) := if_pos ((argMask_eq_zero_iff i s).mpr h)

theorem checked_of_not_inContract {i : Instr} {s : State} (h : ¬ InContract i s) (body : State → State) :
    checked i s body = .next (s.reject (argMask (commandNeeds i) s)) :=
  if_neg fun e => h ((argMask_eq_zero_iff i s).mp e)

theorem checkedHash_of_not_inContract {i : Instr} {s : State} (h : ¬ InContract i s) (body : HashAlg → State → State) :
    checkedHash i s body = .next (s.reject (argMask (commandNeeds i) s)) := by
  unfold checkedHash
  split
  · exact checked_of_not_inContract h _
  · rfl

theorem checkedHash_of_inContract {i : Instr} {s : State} {a : HashAlg} (ha : HashAlg.ofReg? s.alg = some a)
    (h : InContract i s) (body : HashAlg → State → State) : checkedHash i s body = .next (body a s) := by
  rw [checkedHash, ha]; exact checked_of_inContract h _

/-! ## The commands -/

/-- Outside its contract every command is rejected (R222). -/
theorem exec_of_not_inContract {i : Instr} {s : State} (h : ¬ InContract i s) :
    exec i s = .next (s.reject (argMask (commandNeeds i) s)) := by
  cases i <;>
    simp only [exec, execB32enc, execB32dec, execTstep, execHmac, execDtrunc, execTotp, execClear,
      checked_of_not_inContract h, checkedHash_of_not_inContract h]

theorem exec_b32enc {s : State} (h : InContract .b32enc s) :
    exec .b32enc s = .next (s.storeOutput (b32Enc s.codecInput)).complete := by
  rw [exec, execB32enc, checked_of_inContract h]

theorem exec_b32dec {s : State} (h : InContract .b32dec s) :
    exec .b32dec s = .next (s.storeOutput (b32Dec s.codecInput)).complete := by
  rw [exec, execB32dec, checked_of_inContract h]

theorem exec_tstep {s : State} (h : InContract .tstep s) : exec .tstep s = .next s.timeStep.complete := by
  rw [exec, execTstep, checked_of_inContract h]

theorem exec_hmac {s : State} {a : HashAlg} (ha : HashAlg.ofReg? s.alg = some a) (h : InContract .hmac s) :
    exec .hmac s = .next (s.storeDigest (hmac a s.secret (counterBytes s.ctr.toNat))).complete := by
  rw [exec, execHmac, checkedHash_of_inContract ha h]

theorem exec_dtrunc {s : State} {a : HashAlg} (ha : HashAlg.ofReg? s.alg = some a) (h : InContract .dtrunc s) :
    exec .dtrunc s = .next (s.truncate (s.digest.bytes a.digestLen)).complete := by
  rw [exec, execDtrunc, checkedHash_of_inContract ha h]

theorem exec_totp {s : State} {a : HashAlg} (ha : HashAlg.ofReg? s.alg = some a) (h : InContract .totp s) :
    exec .totp s = .next
      ((s.timeStep.storeDigest
          (hmac a s.secret (counterBytes (counterOf s.time.toNat s.period.toNat)))).truncate
        (hmac a s.secret (counterBytes (counterOf s.time.toNat s.period.toNat)))).complete := by
  rw [exec, execTotp, checkedHash_of_inContract ha h]

theorem exec_clear (s : State) : exec .clear s = .next s.zeroise.complete := by
  rw [exec, execClear, checked_of_inContract (i := .clear) trivial]

/-- In contract `ALG` names a hash function, for the commands that need one. -/
theorem InContract.alg {i : Instr} {s : State} (h : InContract i s) (hi : Need.alg ∈ commandNeeds i) :
    ∃ a, HashAlg.ofReg? s.alg = some a := by
  rw [← Option.isSome_iff_exists, HashAlg.ofReg?_isSome_iff]
  cases i <;> simp [commandNeeds] at hi <;> simp only [InContract] at h <;> omega

/-- The state a command that is in contract leads to. -/
abbrev CommandEffect (i : Instr) (s t : State) : Prop :=
  match i with
  | .b32enc => t = (s.storeOutput (b32Enc s.codecInput)).complete
  | .b32dec => t = (s.storeOutput (b32Dec s.codecInput)).complete
  | .tstep => t = s.timeStep.complete
  | .hmac => ∃ a, HashAlg.ofReg? s.alg = some a ∧
      t = (s.storeDigest (hmac a s.secret (counterBytes s.ctr.toNat))).complete
  | .dtrunc => ∃ a, HashAlg.ofReg? s.alg = some a ∧ t = (s.truncate (s.digest.bytes a.digestLen)).complete
  | .totp => ∃ a, HashAlg.ofReg? s.alg = some a ∧
      t = ((s.timeStep.storeDigest
            (hmac a s.secret (counterBytes (counterOf s.time.toNat s.period.toNat)))).truncate
          (hmac a s.secret (counterBytes (counterOf s.time.toNat s.period.toNat)))).complete
  | .clear => t = s.zeroise.complete

/-- Everything an execution can do: the command is in contract and the next state is the one its meaning builds, or it is
not and only `STATUS` changes. -/
theorem exec_cases {i : Instr} {s t : State} (h : exec i s = .next t) :
    (¬ InContract i s ∧ t = s.reject (argMask (commandNeeds i) s)) ∨ (InContract i s ∧ CommandEffect i s t) := by
  by_cases hc : InContract i s
  · refine .inr ⟨hc, ?_⟩
    cases i
    · rw [exec_b32enc hc] at h; injection h with h; exact h.symm
    · rw [exec_b32dec hc] at h; injection h with h; exact h.symm
    · rw [exec_tstep hc] at h; injection h with h; exact h.symm
    · obtain ⟨a, ha⟩ := hc.alg (by decide)
      rw [exec_hmac ha hc] at h; injection h with h; exact ⟨a, ha, h.symm⟩
    · obtain ⟨a, ha⟩ := hc.alg (by decide)
      rw [exec_dtrunc ha hc] at h; injection h with h; exact ⟨a, ha, h.symm⟩
    · obtain ⟨a, ha⟩ := hc.alg (by decide)
      rw [exec_totp ha hc] at h; injection h with h; exact ⟨a, ha, h.symm⟩
    · rw [exec_clear] at h; injection h with h; exact h.symm
  · rw [exec_of_not_inContract hc] at h
    injection h with h
    exact .inl ⟨hc, h.symm⟩

end Sys2Proof.Machine
end

