-- ==== Sys2Proof/Laws/Decode.lean ====
section
/-! SUPPORT. Decoding as one comparison per command. -/

namespace Sys2Proof

/-- A word matches a row of the opcode map exactly when it is the row's word: the mask is all ones (R90). -/
theorem OpcodeRow.matchesWord_iff {r : OpcodeRow} (h : r.mask = 0xFFFFFFFF) (w : Word) :
    r.matchesWord w = (w == r.word) := by
  rw [OpcodeRow.matchesWord, h, show (0xFFFFFFFF : Word) = BitVec.allOnes 32 from rfl, BitVec.and_allOnes]

/-- The decoder as a chain of comparisons. -/
theorem decode_eq (w : Word) : decode w =
    if w = 0x01#32 then .ok .b32enc else if w = 0x02#32 then .ok .b32dec
    else if w = 0x10#32 then .ok .tstep else if w = 0x11#32 then .ok .hmac
    else if w = 0x12#32 then .ok .dtrunc else if w = 0x13#32 then .ok .totp
    else if w = 0x20#32 then .ok .clear
    else .error (if w >>> 8 = 0 then .unassignedOpcode else .reservedBits) := by
  have rows : ∀ r ∈ opcodeTable, r.mask = 0xFFFFFFFF := by decide
  rw [decode, List.find?_congr fun r hr => OpcodeRow.matchesWord_iff (rows r hr) w]
  simp only [opcodeTable, List.find?_cons, List.find?_nil, beq_eq_decide]
  split_ifs <;> simp_all

end Sys2Proof
end

