-- ==== Sys2Proof/Laws/Memory.lean ====
section
/-! SUPPORT. What the buffer operations do: read after write, a buffer written whole, and that every operation keeps the
canonical form. -/

namespace Sys2Proof.Machine

/-! ## Reading -/

@[simp] theorem Memory.read_nil (i : Nat) : Memory.read [] i = 0 := rfl

/-- Below every listed cell nothing is listed. -/
theorem Memory.read_of_lt_all {m : Memory} {i : Nat} (h : ∀ c ∈ m, i < c.1) : m.read i = 0 := by
  induction m with
  | nil => rfl
  | cons c m ih =>
    obtain ⟨a, b⟩ := c
    have ha : i < a := h (a, b) (by simp)
    rw [Memory.read, if_neg (by omega)]
    exact ih fun d hd => h d (List.mem_cons_of_mem _ hd)

/-- A cell at or beyond the buffer's size reads as zero. -/
theorem Memory.read_of_size_le {n i : Nat} {m : Memory} (h : Memory.Wf n m) (hi : n ≤ i) : m.read i = 0 := by
  obtain ⟨-, h⟩ := h
  induction m with
  | nil => rfl
  | cons c m ih =>
    obtain ⟨a, b⟩ := c
    have ha := (h (a, b) (by simp)).1
    rw [Memory.read, if_neg (by dsimp at ha; omega)]
    exact ih fun d hd => h d (List.mem_cons_of_mem _ hd)

@[simp] theorem Memory.length_bytes (m : Memory) (n : Nat) : (m.bytes n).length = n := by
  simp [Memory.bytes]

@[simp] theorem Memory.getElem?_bytes (m : Memory) (n i : Nat) :
    (m.bytes n)[i]? = if i < n then some (m.read i) else none := by
  by_cases h : i < n <;> simp [Memory.bytes, h]

theorem Memory.getD_bytes (m : Memory) (n i : Nat) :
    (m.bytes n).getD i 0 = if i < n then m.read i else 0 := by
  rw [List.getD_eq_getElem?_getD, Memory.getElem?_bytes]
  split <;> rfl

/-- The first `n` cells depend on those cells alone. -/
theorem Memory.bytes_congr {m m' : Memory} {n : Nat} (h : ∀ i < n, m.read i = m'.read i) : m.bytes n = m'.bytes n :=
  List.map_congr_left fun i hi => h i (List.mem_range.mp hi)

/-! ## Writing one cell -/

/-- Every cell an update lists is the written one or was listed before. -/
theorem Memory.mem_write {m : Memory} {i : Nat} {b : Byte} {c : Host.Cell} (h : c ∈ m.write i b) :
    c ∈ m ∨ (c = (i, b) ∧ b ≠ 0) := by
  induction m with
  | nil =>
    rw [Memory.write] at h
    split at h <;> simp_all
  | cons d m ih =>
    obtain ⟨a, e⟩ := d
    rw [Memory.write] at h
    split at h
    · split at h <;> (simp_all; try tauto)
    · split at h
      · split at h <;> (simp_all; try tauto)
      · rcases List.mem_cons.mp h with h | h
        · exact .inl (by simp [h])
        · rcases ih h with h | h
          · exact .inl (by simp [h])
          · exact .inr h

/-- Read after write. -/
theorem Memory.read_write {m : Memory} (h : m.Pairwise fun c d => c.1 < d.1) (i j : Nat) (b : Byte) :
    (m.write i b).read j = if j = i then b else m.read j := by
  induction m with
  | nil =>
    rw [Memory.write]
    by_cases hb : b = 0
    · simp [hb]
    · rw [if_neg hb, Memory.read_nil, Memory.read, Memory.read_nil]
      by_cases hj : j = i
      · rw [if_pos hj.symm, if_pos hj]
      · rw [if_neg (Ne.symm hj), if_neg hj]
  | cons c m ih =>
    obtain ⟨a, e⟩ := c
    obtain ⟨hlt, hm⟩ := List.pairwise_cons.mp h
    have tail : ∀ k ≤ a, Memory.read m k = 0 :=
      fun k hk => Memory.read_of_lt_all fun d hd => Nat.lt_of_le_of_lt hk (hlt d hd)
    rw [Memory.write]
    by_cases h1 : i < a
    · rw [if_pos h1]
      by_cases hb : b = 0
      · rw [if_pos hb]
        by_cases hj : j = i
        · rw [if_pos hj, Memory.read, if_neg (by omega), tail j (by omega), hb]
        · rw [if_neg hj]
      · rw [if_neg hb, Memory.read]
        by_cases hj : j = i
        · rw [if_pos hj.symm, if_pos hj]
        · rw [if_neg (Ne.symm hj), if_neg hj]
    · rw [if_neg h1]
      by_cases h2 : i = a
      · rw [if_pos h2]
        by_cases hb : b = 0
        · rw [if_pos hb]
          by_cases hj : j = i
          · rw [if_pos hj, hb, tail j (by omega)]
          · rw [if_neg hj, Memory.read, if_neg (by omega)]
        · rw [if_neg hb, Memory.read, Memory.read]
          by_cases hj : j = i
          · rw [if_pos hj.symm, if_pos hj]
          · rw [if_neg (Ne.symm hj), if_neg hj, if_neg (by omega)]
      · rw [if_neg h2, Memory.read, ih hm, Memory.read]
        by_cases hj : j = i
        · rw [if_pos hj, if_pos hj, if_neg (by omega)]
        · rw [if_neg hj, if_neg hj]

/-- A write keeps the canonical form. -/
theorem Memory.write_wf {n i : Nat} {m : Memory} (h : Memory.Wf n m) (hi : i < n) (b : Byte) :
    Memory.Wf n (m.write i b) := by
  refine ⟨?_, fun c hc => ?_⟩
  · obtain ⟨hp, -⟩ := h
    induction m with
    | nil => rw [Memory.write]; split <;> simp
    | cons c m ih =>
      obtain ⟨a, e⟩ := c
      obtain ⟨hlt, hm⟩ := List.pairwise_cons.mp hp
      rw [Memory.write]
      split
      · split
        · exact hp
        · refine List.pairwise_cons.mpr ⟨fun d hd => ?_, hp⟩
          rcases List.mem_cons.mp hd with rfl | hd
          · assumption
          · exact Nat.lt_trans ‹i < a› (hlt d hd)
      · split
        · split
          · exact hm
          · exact List.pairwise_cons.mpr ⟨fun d hd => by simpa [‹i = a›] using hlt d hd, hm⟩
        · refine List.pairwise_cons.mpr ⟨fun d hd => ?_, ih hm⟩
          rcases Memory.mem_write hd with hd | ⟨rfl, -⟩
          · exact hlt d hd
          · dsimp only; omega
  · rcases Memory.mem_write hc with hc | ⟨rfl, hb⟩
    · exact h.2 c hc
    · exact ⟨hi, hb⟩

/-! ## Writing a whole buffer -/

theorem Memory.mem_ofBytesFrom {k : Nat} {bs : List Byte} {c : Host.Cell} (h : c ∈ Memory.ofBytesFrom k bs) :
    k ≤ c.1 ∧ c.1 < k + bs.length ∧ c.2 ≠ 0 := by
  induction bs generalizing k with
  | nil => simp [Memory.ofBytesFrom] at h
  | cons b bs ih =>
    rw [Memory.ofBytesFrom] at h
    have rest : c ∈ Memory.ofBytesFrom (k + 1) bs → k ≤ c.1 ∧ c.1 < k + (b :: bs).length ∧ c.2 ≠ 0 := fun h => by
      have := ih h
      simp only [List.length_cons]
      exact ⟨by omega, by omega, this.2.2⟩
    split at h
    · exact rest h
    · rcases List.mem_cons.mp h with rfl | h
      · exact ⟨Nat.le_refl _, by simp, ‹_›⟩
      · exact rest h

theorem Memory.pairwise_ofBytesFrom (k : Nat) (bs : List Byte) :
    (Memory.ofBytesFrom k bs).Pairwise fun c d => c.1 < d.1 := by
  induction bs generalizing k with
  | nil => simp [Memory.ofBytesFrom]
  | cons b bs ih =>
    rw [Memory.ofBytesFrom]
    split
    · exact ih _
    · exact List.pairwise_cons.mpr ⟨fun d hd => (Memory.mem_ofBytesFrom hd).1, ih _⟩

/-- A buffer written whole is in canonical form. -/
theorem Memory.ofBytes_wf {n : Nat} {bs : List Byte} (h : bs.length ≤ n) : Memory.Wf n (Memory.ofBytes bs) :=
  ⟨Memory.pairwise_ofBytesFrom 0 bs, fun _ hc => by
    have := Memory.mem_ofBytesFrom hc
    exact ⟨by omega, this.2.2⟩⟩

theorem Memory.read_ofBytesFrom (k j : Nat) (bs : List Byte) :
    (Memory.ofBytesFrom k bs).read j = if j < k then 0 else bs.getD (j - k) 0 := by
  induction bs generalizing k with
  | nil => simp [Memory.ofBytesFrom]
  | cons b bs ih =>
    have skip : j ≠ k → (Memory.ofBytesFrom (k + 1) bs).read j = if j < k then 0 else (b :: bs).getD (j - k) 0 := by
      intro hj
      rw [ih]
      by_cases h : j < k
      · rw [if_pos h, if_pos (by omega)]
      · rw [if_neg h, if_neg (by omega), show j - k = (j - (k + 1)) + 1 by omega, List.getD_cons_succ]
    rw [Memory.ofBytesFrom]
    by_cases hj : j = k
    · subst hj
      rw [if_neg (Nat.lt_irrefl j), Nat.sub_self, List.getD_cons_zero]
      split
      · rw [ih, if_pos (by omega)]; exact Eq.symm ‹_›
      · rw [Memory.read, if_pos rfl]
    · split
      · exact skip hj
      · rw [Memory.read, if_neg (Ne.symm hj)]; exact skip hj

/-- The data, then zeros to the end. -/
@[simp] theorem Memory.read_ofBytes (bs : List Byte) (j : Nat) : (Memory.ofBytes bs).read j = bs.getD j 0 := by
  rw [Memory.ofBytes, Memory.read_ofBytesFrom, if_neg (by omega), Nat.sub_zero]

/-- A buffer written with `bs` gives `bs` back. -/
@[simp] theorem Memory.bytes_ofBytes (bs : List Byte) : (Memory.ofBytes bs).bytes bs.length = bs := by
  apply List.ext_getElem?
  intro i
  rw [Memory.getElem?_bytes, Memory.read_ofBytes]
  by_cases h : i < bs.length
  · simp [h]
  · simp [h]

theorem Memory.ofBytesFrom_rep_zero (k n : Nat) : Memory.ofBytesFrom k (rep 0#8 n) = [] := by
  induction n generalizing k with
  | zero => rfl
  | succ n ih => rw [rep, List.replicate_succ, Memory.ofBytesFrom, if_pos (show (0#8) = 0 from rfl)]; exact ih _

/-- A buffer of zeros lists nothing. -/
@[simp] theorem Memory.ofBytes_rep_zero (n : Nat) : Memory.ofBytes (rep 0#8 n) = [] := Memory.ofBytesFrom_rep_zero 0 n

/-! ## Canonical form -/

/-- Equal buffers are equal data: two buffers in canonical form with the same content are the same list. -/
theorem Memory.eq_of_read_eq {n n' : Nat} {m m' : Memory} (h : Memory.Wf n m) (h' : Memory.Wf n' m')
    (e : ∀ i, m.read i = m'.read i) : m = m' := by
  induction m generalizing m' with
  | nil =>
    cases m' with
    | nil => rfl
    | cons c m' =>
      have := e c.1
      rw [Memory.read_nil, Memory.read, if_pos rfl] at this
      exact absurd this.symm (h'.2 c (by simp)).2
  | cons c m ih =>
    cases m' with
    | nil =>
      have := e c.1
      rw [Memory.read_nil, Memory.read, if_pos rfl] at this
      exact absurd this (h.2 c (by simp)).2
    | cons d m' =>
      obtain ⟨a, b⟩ := c
      obtain ⟨a', b'⟩ := d
      obtain ⟨hlt, hm⟩ := List.pairwise_cons.mp h.1
      obtain ⟨hlt', hm'⟩ := List.pairwise_cons.mp h'.1
      have hb : b ≠ 0 := (h.2 (a, b) (by simp)).2
      have hb' : b' ≠ 0 := (h'.2 (a', b') (by simp)).2
      have low : ∀ k ≤ a, Memory.read m k = 0 :=
        fun k hk => Memory.read_of_lt_all fun d hd => Nat.lt_of_le_of_lt hk (hlt d hd)
      have low' : ∀ k ≤ a', Memory.read m' k = 0 :=
        fun k hk => Memory.read_of_lt_all fun d hd => Nat.lt_of_le_of_lt hk (hlt' d hd)
      have haa : a = a' := by
        rcases Nat.lt_trichotomy a a' with hl | hl | hl
        · have := e a
          rw [Memory.read, if_pos rfl, Memory.read, if_neg (by omega), low' a (by omega)] at this
          exact absurd this hb
        · exact hl
        · have := e a'
          rw [Memory.read, if_neg (by omega), low a' (by omega), Memory.read, if_pos rfl] at this
          exact absurd this.symm hb'
      subst haa
      have hbb : b = b' := by
        have := e a
        rwa [Memory.read, if_pos rfl, Memory.read, if_pos rfl] at this
      subst hbb
      congr 1
      refine ih ⟨hm, fun c hc => h.2 c (List.mem_cons_of_mem _ hc)⟩
        ⟨hm', fun c hc => h'.2 c (List.mem_cons_of_mem _ hc)⟩ fun i => ?_
      by_cases hi : i ≤ a
      · rw [low i hi, low' i hi]
      · have := e i
        rwa [Memory.read, if_neg (by omega), Memory.read, if_neg (by omega)] at this

end Sys2Proof.Machine
end

