-- ==== Sys2Proof/Laws/PerInstr.lean ====
section
/-! SUPPORT. Statements about every command, made command by command. -/

namespace Sys2Proof.Laws.ReservedBits

/-- The word of a command has a zero `RSV` field (R90, R92), and `OPCODE` is one of the assigned ones (R91). -/
def Statement (i : Instr) : Prop := wordRsv (encode i) = 0 ∧ wordOpcode (encode i) ∈ assignedOpcodes

theorem b32enc : Statement .b32enc := by unfold Statement; decide

theorem b32dec : Statement .b32dec := by unfold Statement; decide

theorem tstep : Statement .tstep := by unfold Statement; decide

theorem hmac : Statement .hmac := by unfold Statement; decide

theorem dtrunc : Statement .dtrunc := by unfold Statement; decide

theorem totp : Statement .totp := by unfold Statement; decide

theorem clear : Statement .clear := by unfold Statement; decide

end Sys2Proof.Laws.ReservedBits
end

