-- ==== Sys2Proof/Laws/State.lean ====
section
/-! SUPPORT. One lemma per field per named update of State, each true by rfl, so that no later proof unfolds a record
update. The operations that end a command are rewritten to `setStatus` first. -/

namespace Sys2Proof.Machine

variable (s : State)

/-! ## The ends of a command are updates of `STATUS` -/

@[simp] theorem State.complete_eq : s.complete = s.setStatus statusSuccess := rfl

@[simp] theorem State.takeCommandError_eq (e : CommandError) (info : Byte) :
    s.takeCommandError e info = s.setStatus (statusRejected e info) := rfl

@[simp] theorem State.reject_eq (m : ArgBits) :
    s.reject m = s.setStatus (statusRejected (rejectionClass m) (m.setWidth 8)) := rfl

@[simp] theorem State.illegalCommand_eq : s.illegalCommand = s.setStatus (statusRejected .illegalCommand 0) := rfl

/-! ## `setCmd` -/

@[simp] theorem State.setCmd_cmd (v : Word) : (s.setCmd v).cmd = v := rfl
@[simp] theorem State.setCmd_status (v : Word) : (s.setCmd v).status = s.status := rfl
@[simp] theorem State.setCmd_alg (v : Word) : (s.setCmd v).alg = s.alg := rfl
@[simp] theorem State.setCmd_digits (v : Word) : (s.setCmd v).digits = s.digits := rfl
@[simp] theorem State.setCmd_period (v : Word) : (s.setCmd v).period = s.period := rfl
@[simp] theorem State.setCmd_timeLo (v : Word) : (s.setCmd v).timeLo = s.timeLo := rfl
@[simp] theorem State.setCmd_timeHi (v : Word) : (s.setCmd v).timeHi = s.timeHi := rfl
@[simp] theorem State.setCmd_ctrLo (v : Word) : (s.setCmd v).ctrLo = s.ctrLo := rfl
@[simp] theorem State.setCmd_ctrHi (v : Word) : (s.setCmd v).ctrHi = s.ctrHi := rfl
@[simp] theorem State.setCmd_keylen (v : Word) : (s.setCmd v).keylen = s.keylen := rfl
@[simp] theorem State.setCmd_ilen (v : Word) : (s.setCmd v).ilen = s.ilen := rfl
@[simp] theorem State.setCmd_olen (v : Word) : (s.setCmd v).olen = s.olen := rfl
@[simp] theorem State.setCmd_remain (v : Word) : (s.setCmd v).remain = s.remain := rfl
@[simp] theorem State.setCmd_offset (v : Word) : (s.setCmd v).offset = s.offset := rfl
@[simp] theorem State.setCmd_bincode (v : Word) : (s.setCmd v).bincode = s.bincode := rfl
@[simp] theorem State.setCmd_value (v : Word) : (s.setCmd v).value = s.value := rfl
@[simp] theorem State.setCmd_code (v : Word) : (s.setCmd v).code = s.code := rfl
@[simp] theorem State.setCmd_digest (v : Word) : (s.setCmd v).digest = s.digest := rfl
@[simp] theorem State.setCmd_key (v : Word) : (s.setCmd v).key = s.key := rfl
@[simp] theorem State.setCmd_ibuf (v : Word) : (s.setCmd v).ibuf = s.ibuf := rfl
@[simp] theorem State.setCmd_obuf (v : Word) : (s.setCmd v).obuf = s.obuf := rfl
@[simp] theorem State.setCmd_pending (v : Word) : (s.setCmd v).pending = s.pending := rfl
@[simp] theorem State.setCmd_responses (v : Word) : (s.setCmd v).responses = s.responses := rfl

/-! ## `setStatus` -/

@[simp] theorem State.setStatus_cmd (v : Word) : (s.setStatus v).cmd = s.cmd := rfl
@[simp] theorem State.setStatus_status (v : Word) : (s.setStatus v).status = v := rfl
@[simp] theorem State.setStatus_alg (v : Word) : (s.setStatus v).alg = s.alg := rfl
@[simp] theorem State.setStatus_digits (v : Word) : (s.setStatus v).digits = s.digits := rfl
@[simp] theorem State.setStatus_period (v : Word) : (s.setStatus v).period = s.period := rfl
@[simp] theorem State.setStatus_timeLo (v : Word) : (s.setStatus v).timeLo = s.timeLo := rfl
@[simp] theorem State.setStatus_timeHi (v : Word) : (s.setStatus v).timeHi = s.timeHi := rfl
@[simp] theorem State.setStatus_ctrLo (v : Word) : (s.setStatus v).ctrLo = s.ctrLo := rfl
@[simp] theorem State.setStatus_ctrHi (v : Word) : (s.setStatus v).ctrHi = s.ctrHi := rfl
@[simp] theorem State.setStatus_keylen (v : Word) : (s.setStatus v).keylen = s.keylen := rfl
@[simp] theorem State.setStatus_ilen (v : Word) : (s.setStatus v).ilen = s.ilen := rfl
@[simp] theorem State.setStatus_olen (v : Word) : (s.setStatus v).olen = s.olen := rfl
@[simp] theorem State.setStatus_remain (v : Word) : (s.setStatus v).remain = s.remain := rfl
@[simp] theorem State.setStatus_offset (v : Word) : (s.setStatus v).offset = s.offset := rfl
@[simp] theorem State.setStatus_bincode (v : Word) : (s.setStatus v).bincode = s.bincode := rfl
@[simp] theorem State.setStatus_value (v : Word) : (s.setStatus v).value = s.value := rfl
@[simp] theorem State.setStatus_code (v : Word) : (s.setStatus v).code = s.code := rfl
@[simp] theorem State.setStatus_digest (v : Word) : (s.setStatus v).digest = s.digest := rfl
@[simp] theorem State.setStatus_key (v : Word) : (s.setStatus v).key = s.key := rfl
@[simp] theorem State.setStatus_ibuf (v : Word) : (s.setStatus v).ibuf = s.ibuf := rfl
@[simp] theorem State.setStatus_obuf (v : Word) : (s.setStatus v).obuf = s.obuf := rfl
@[simp] theorem State.setStatus_pending (v : Word) : (s.setStatus v).pending = s.pending := rfl
@[simp] theorem State.setStatus_responses (v : Word) : (s.setStatus v).responses = s.responses := rfl

/-! ## `writeDigest` -/

@[simp] theorem State.writeDigest_cmd (i : Nat) (v : Word) : (s.writeDigest i v).cmd = s.cmd := rfl
@[simp] theorem State.writeDigest_status (i : Nat) (v : Word) : (s.writeDigest i v).status = s.status := rfl
@[simp] theorem State.writeDigest_alg (i : Nat) (v : Word) : (s.writeDigest i v).alg = s.alg := rfl
@[simp] theorem State.writeDigest_digits (i : Nat) (v : Word) : (s.writeDigest i v).digits = s.digits := rfl
@[simp] theorem State.writeDigest_period (i : Nat) (v : Word) : (s.writeDigest i v).period = s.period := rfl
@[simp] theorem State.writeDigest_timeLo (i : Nat) (v : Word) : (s.writeDigest i v).timeLo = s.timeLo := rfl
@[simp] theorem State.writeDigest_timeHi (i : Nat) (v : Word) : (s.writeDigest i v).timeHi = s.timeHi := rfl
@[simp] theorem State.writeDigest_ctrLo (i : Nat) (v : Word) : (s.writeDigest i v).ctrLo = s.ctrLo := rfl
@[simp] theorem State.writeDigest_ctrHi (i : Nat) (v : Word) : (s.writeDigest i v).ctrHi = s.ctrHi := rfl
@[simp] theorem State.writeDigest_keylen (i : Nat) (v : Word) : (s.writeDigest i v).keylen = s.keylen := rfl
@[simp] theorem State.writeDigest_ilen (i : Nat) (v : Word) : (s.writeDigest i v).ilen = s.ilen := rfl
@[simp] theorem State.writeDigest_olen (i : Nat) (v : Word) : (s.writeDigest i v).olen = s.olen := rfl
@[simp] theorem State.writeDigest_remain (i : Nat) (v : Word) : (s.writeDigest i v).remain = s.remain := rfl
@[simp] theorem State.writeDigest_offset (i : Nat) (v : Word) : (s.writeDigest i v).offset = s.offset := rfl
@[simp] theorem State.writeDigest_bincode (i : Nat) (v : Word) : (s.writeDigest i v).bincode = s.bincode := rfl
@[simp] theorem State.writeDigest_value (i : Nat) (v : Word) : (s.writeDigest i v).value = s.value := rfl
@[simp] theorem State.writeDigest_code (i : Nat) (v : Word) : (s.writeDigest i v).code = s.code := rfl
@[simp] theorem State.writeDigest_digest (i : Nat) (v : Word) :
    (s.writeDigest i v).digest = s.digest.write i (v.setWidth 8) := rfl
@[simp] theorem State.writeDigest_key (i : Nat) (v : Word) : (s.writeDigest i v).key = s.key := rfl
@[simp] theorem State.writeDigest_ibuf (i : Nat) (v : Word) : (s.writeDigest i v).ibuf = s.ibuf := rfl
@[simp] theorem State.writeDigest_obuf (i : Nat) (v : Word) : (s.writeDigest i v).obuf = s.obuf := rfl
@[simp] theorem State.writeDigest_pending (i : Nat) (v : Word) : (s.writeDigest i v).pending = s.pending := rfl
@[simp] theorem State.writeDigest_responses (i : Nat) (v : Word) : (s.writeDigest i v).responses = s.responses := rfl

/-! ## `writeKey` -/

@[simp] theorem State.writeKey_cmd (i : Nat) (v : Word) : (s.writeKey i v).cmd = s.cmd := rfl
@[simp] theorem State.writeKey_status (i : Nat) (v : Word) : (s.writeKey i v).status = s.status := rfl
@[simp] theorem State.writeKey_alg (i : Nat) (v : Word) : (s.writeKey i v).alg = s.alg := rfl
@[simp] theorem State.writeKey_digits (i : Nat) (v : Word) : (s.writeKey i v).digits = s.digits := rfl
@[simp] theorem State.writeKey_period (i : Nat) (v : Word) : (s.writeKey i v).period = s.period := rfl
@[simp] theorem State.writeKey_timeLo (i : Nat) (v : Word) : (s.writeKey i v).timeLo = s.timeLo := rfl
@[simp] theorem State.writeKey_timeHi (i : Nat) (v : Word) : (s.writeKey i v).timeHi = s.timeHi := rfl
@[simp] theorem State.writeKey_ctrLo (i : Nat) (v : Word) : (s.writeKey i v).ctrLo = s.ctrLo := rfl
@[simp] theorem State.writeKey_ctrHi (i : Nat) (v : Word) : (s.writeKey i v).ctrHi = s.ctrHi := rfl
@[simp] theorem State.writeKey_keylen (i : Nat) (v : Word) : (s.writeKey i v).keylen = s.keylen := rfl
@[simp] theorem State.writeKey_ilen (i : Nat) (v : Word) : (s.writeKey i v).ilen = s.ilen := rfl
@[simp] theorem State.writeKey_olen (i : Nat) (v : Word) : (s.writeKey i v).olen = s.olen := rfl
@[simp] theorem State.writeKey_remain (i : Nat) (v : Word) : (s.writeKey i v).remain = s.remain := rfl
@[simp] theorem State.writeKey_offset (i : Nat) (v : Word) : (s.writeKey i v).offset = s.offset := rfl
@[simp] theorem State.writeKey_bincode (i : Nat) (v : Word) : (s.writeKey i v).bincode = s.bincode := rfl
@[simp] theorem State.writeKey_value (i : Nat) (v : Word) : (s.writeKey i v).value = s.value := rfl
@[simp] theorem State.writeKey_code (i : Nat) (v : Word) : (s.writeKey i v).code = s.code := rfl
@[simp] theorem State.writeKey_digest (i : Nat) (v : Word) : (s.writeKey i v).digest = s.digest := rfl
@[simp] theorem State.writeKey_key (i : Nat) (v : Word) : (s.writeKey i v).key = s.key.write i (v.setWidth 8) := rfl
@[simp] theorem State.writeKey_ibuf (i : Nat) (v : Word) : (s.writeKey i v).ibuf = s.ibuf := rfl
@[simp] theorem State.writeKey_obuf (i : Nat) (v : Word) : (s.writeKey i v).obuf = s.obuf := rfl
@[simp] theorem State.writeKey_pending (i : Nat) (v : Word) : (s.writeKey i v).pending = s.pending := rfl
@[simp] theorem State.writeKey_responses (i : Nat) (v : Word) : (s.writeKey i v).responses = s.responses := rfl

/-! ## `writeIbuf` -/

@[simp] theorem State.writeIbuf_cmd (i : Nat) (v : Word) : (s.writeIbuf i v).cmd = s.cmd := rfl
@[simp] theorem State.writeIbuf_status (i : Nat) (v : Word) : (s.writeIbuf i v).status = s.status := rfl
@[simp] theorem State.writeIbuf_alg (i : Nat) (v : Word) : (s.writeIbuf i v).alg = s.alg := rfl
@[simp] theorem State.writeIbuf_digits (i : Nat) (v : Word) : (s.writeIbuf i v).digits = s.digits := rfl
@[simp] theorem State.writeIbuf_period (i : Nat) (v : Word) : (s.writeIbuf i v).period = s.period := rfl
@[simp] theorem State.writeIbuf_timeLo (i : Nat) (v : Word) : (s.writeIbuf i v).timeLo = s.timeLo := rfl
@[simp] theorem State.writeIbuf_timeHi (i : Nat) (v : Word) : (s.writeIbuf i v).timeHi = s.timeHi := rfl
@[simp] theorem State.writeIbuf_ctrLo (i : Nat) (v : Word) : (s.writeIbuf i v).ctrLo = s.ctrLo := rfl
@[simp] theorem State.writeIbuf_ctrHi (i : Nat) (v : Word) : (s.writeIbuf i v).ctrHi = s.ctrHi := rfl
@[simp] theorem State.writeIbuf_keylen (i : Nat) (v : Word) : (s.writeIbuf i v).keylen = s.keylen := rfl
@[simp] theorem State.writeIbuf_ilen (i : Nat) (v : Word) : (s.writeIbuf i v).ilen = s.ilen := rfl
@[simp] theorem State.writeIbuf_olen (i : Nat) (v : Word) : (s.writeIbuf i v).olen = s.olen := rfl
@[simp] theorem State.writeIbuf_remain (i : Nat) (v : Word) : (s.writeIbuf i v).remain = s.remain := rfl
@[simp] theorem State.writeIbuf_offset (i : Nat) (v : Word) : (s.writeIbuf i v).offset = s.offset := rfl
@[simp] theorem State.writeIbuf_bincode (i : Nat) (v : Word) : (s.writeIbuf i v).bincode = s.bincode := rfl
@[simp] theorem State.writeIbuf_value (i : Nat) (v : Word) : (s.writeIbuf i v).value = s.value := rfl
@[simp] theorem State.writeIbuf_code (i : Nat) (v : Word) : (s.writeIbuf i v).code = s.code := rfl
@[simp] theorem State.writeIbuf_digest (i : Nat) (v : Word) : (s.writeIbuf i v).digest = s.digest := rfl
@[simp] theorem State.writeIbuf_key (i : Nat) (v : Word) : (s.writeIbuf i v).key = s.key := rfl
@[simp] theorem State.writeIbuf_ibuf (i : Nat) (v : Word) :
    (s.writeIbuf i v).ibuf = s.ibuf.write i (v.setWidth 8) := rfl
@[simp] theorem State.writeIbuf_obuf (i : Nat) (v : Word) : (s.writeIbuf i v).obuf = s.obuf := rfl
@[simp] theorem State.writeIbuf_pending (i : Nat) (v : Word) : (s.writeIbuf i v).pending = s.pending := rfl
@[simp] theorem State.writeIbuf_responses (i : Nat) (v : Word) : (s.writeIbuf i v).responses = s.responses := rfl

/-! ## `storeOutput` -/

@[simp] theorem State.storeOutput_cmd (out : List Byte) : (s.storeOutput out).cmd = s.cmd := rfl
@[simp] theorem State.storeOutput_status (out : List Byte) : (s.storeOutput out).status = s.status := rfl
@[simp] theorem State.storeOutput_alg (out : List Byte) : (s.storeOutput out).alg = s.alg := rfl
@[simp] theorem State.storeOutput_digits (out : List Byte) : (s.storeOutput out).digits = s.digits := rfl
@[simp] theorem State.storeOutput_period (out : List Byte) : (s.storeOutput out).period = s.period := rfl
@[simp] theorem State.storeOutput_timeLo (out : List Byte) : (s.storeOutput out).timeLo = s.timeLo := rfl
@[simp] theorem State.storeOutput_timeHi (out : List Byte) : (s.storeOutput out).timeHi = s.timeHi := rfl
@[simp] theorem State.storeOutput_ctrLo (out : List Byte) : (s.storeOutput out).ctrLo = s.ctrLo := rfl
@[simp] theorem State.storeOutput_ctrHi (out : List Byte) : (s.storeOutput out).ctrHi = s.ctrHi := rfl
@[simp] theorem State.storeOutput_keylen (out : List Byte) : (s.storeOutput out).keylen = s.keylen := rfl
@[simp] theorem State.storeOutput_ilen (out : List Byte) : (s.storeOutput out).ilen = s.ilen := rfl
@[simp] theorem State.storeOutput_olen (out : List Byte) : (s.storeOutput out).olen = BitVec.ofNat 32 out.length := rfl
@[simp] theorem State.storeOutput_remain (out : List Byte) : (s.storeOutput out).remain = s.remain := rfl
@[simp] theorem State.storeOutput_offset (out : List Byte) : (s.storeOutput out).offset = s.offset := rfl
@[simp] theorem State.storeOutput_bincode (out : List Byte) : (s.storeOutput out).bincode = s.bincode := rfl
@[simp] theorem State.storeOutput_value (out : List Byte) : (s.storeOutput out).value = s.value := rfl
@[simp] theorem State.storeOutput_code (out : List Byte) : (s.storeOutput out).code = s.code := rfl
@[simp] theorem State.storeOutput_digest (out : List Byte) : (s.storeOutput out).digest = s.digest := rfl
@[simp] theorem State.storeOutput_key (out : List Byte) : (s.storeOutput out).key = s.key := rfl
@[simp] theorem State.storeOutput_ibuf (out : List Byte) : (s.storeOutput out).ibuf = s.ibuf := rfl
@[simp] theorem State.storeOutput_obuf (out : List Byte) : (s.storeOutput out).obuf = Memory.ofBytes out := rfl
@[simp] theorem State.storeOutput_pending (out : List Byte) : (s.storeOutput out).pending = s.pending := rfl
@[simp] theorem State.storeOutput_responses (out : List Byte) : (s.storeOutput out).responses = s.responses := rfl

/-! ## `storeStep` -/

@[simp] theorem State.storeStep_cmd (c r : Nat) : (s.storeStep c r).cmd = s.cmd := rfl
@[simp] theorem State.storeStep_status (c r : Nat) : (s.storeStep c r).status = s.status := rfl
@[simp] theorem State.storeStep_alg (c r : Nat) : (s.storeStep c r).alg = s.alg := rfl
@[simp] theorem State.storeStep_digits (c r : Nat) : (s.storeStep c r).digits = s.digits := rfl
@[simp] theorem State.storeStep_period (c r : Nat) : (s.storeStep c r).period = s.period := rfl
@[simp] theorem State.storeStep_timeLo (c r : Nat) : (s.storeStep c r).timeLo = s.timeLo := rfl
@[simp] theorem State.storeStep_timeHi (c r : Nat) : (s.storeStep c r).timeHi = s.timeHi := rfl
@[simp] theorem State.storeStep_ctrLo (c r : Nat) :
    (s.storeStep c r).ctrLo = (BitVec.ofNat 64 c).extractLsb' 0 32 := rfl
@[simp] theorem State.storeStep_ctrHi (c r : Nat) :
    (s.storeStep c r).ctrHi = (BitVec.ofNat 64 c).extractLsb' 32 32 := rfl
@[simp] theorem State.storeStep_keylen (c r : Nat) : (s.storeStep c r).keylen = s.keylen := rfl
@[simp] theorem State.storeStep_ilen (c r : Nat) : (s.storeStep c r).ilen = s.ilen := rfl
@[simp] theorem State.storeStep_olen (c r : Nat) : (s.storeStep c r).olen = s.olen := rfl
@[simp] theorem State.storeStep_remain (c r : Nat) : (s.storeStep c r).remain = BitVec.ofNat 32 r := rfl
@[simp] theorem State.storeStep_offset (c r : Nat) : (s.storeStep c r).offset = s.offset := rfl
@[simp] theorem State.storeStep_bincode (c r : Nat) : (s.storeStep c r).bincode = s.bincode := rfl
@[simp] theorem State.storeStep_value (c r : Nat) : (s.storeStep c r).value = s.value := rfl
@[simp] theorem State.storeStep_code (c r : Nat) : (s.storeStep c r).code = s.code := rfl
@[simp] theorem State.storeStep_digest (c r : Nat) : (s.storeStep c r).digest = s.digest := rfl
@[simp] theorem State.storeStep_key (c r : Nat) : (s.storeStep c r).key = s.key := rfl
@[simp] theorem State.storeStep_ibuf (c r : Nat) : (s.storeStep c r).ibuf = s.ibuf := rfl
@[simp] theorem State.storeStep_obuf (c r : Nat) : (s.storeStep c r).obuf = s.obuf := rfl
@[simp] theorem State.storeStep_pending (c r : Nat) : (s.storeStep c r).pending = s.pending := rfl
@[simp] theorem State.storeStep_responses (c r : Nat) : (s.storeStep c r).responses = s.responses := rfl

/-! ## `storeDigest` -/

@[simp] theorem State.storeDigest_cmd (d : List Byte) : (s.storeDigest d).cmd = s.cmd := rfl
@[simp] theorem State.storeDigest_status (d : List Byte) : (s.storeDigest d).status = s.status := rfl
@[simp] theorem State.storeDigest_alg (d : List Byte) : (s.storeDigest d).alg = s.alg := rfl
@[simp] theorem State.storeDigest_digits (d : List Byte) : (s.storeDigest d).digits = s.digits := rfl
@[simp] theorem State.storeDigest_period (d : List Byte) : (s.storeDigest d).period = s.period := rfl
@[simp] theorem State.storeDigest_timeLo (d : List Byte) : (s.storeDigest d).timeLo = s.timeLo := rfl
@[simp] theorem State.storeDigest_timeHi (d : List Byte) : (s.storeDigest d).timeHi = s.timeHi := rfl
@[simp] theorem State.storeDigest_ctrLo (d : List Byte) : (s.storeDigest d).ctrLo = s.ctrLo := rfl
@[simp] theorem State.storeDigest_ctrHi (d : List Byte) : (s.storeDigest d).ctrHi = s.ctrHi := rfl
@[simp] theorem State.storeDigest_keylen (d : List Byte) : (s.storeDigest d).keylen = s.keylen := rfl
@[simp] theorem State.storeDigest_ilen (d : List Byte) : (s.storeDigest d).ilen = s.ilen := rfl
@[simp] theorem State.storeDigest_olen (d : List Byte) : (s.storeDigest d).olen = s.olen := rfl
@[simp] theorem State.storeDigest_remain (d : List Byte) : (s.storeDigest d).remain = s.remain := rfl
@[simp] theorem State.storeDigest_offset (d : List Byte) : (s.storeDigest d).offset = s.offset := rfl
@[simp] theorem State.storeDigest_bincode (d : List Byte) : (s.storeDigest d).bincode = s.bincode := rfl
@[simp] theorem State.storeDigest_value (d : List Byte) : (s.storeDigest d).value = s.value := rfl
@[simp] theorem State.storeDigest_code (d : List Byte) : (s.storeDigest d).code = s.code := rfl
@[simp] theorem State.storeDigest_digest (d : List Byte) : (s.storeDigest d).digest = Memory.ofBytes d := rfl
@[simp] theorem State.storeDigest_key (d : List Byte) : (s.storeDigest d).key = s.key := rfl
@[simp] theorem State.storeDigest_ibuf (d : List Byte) : (s.storeDigest d).ibuf = s.ibuf := rfl
@[simp] theorem State.storeDigest_obuf (d : List Byte) : (s.storeDigest d).obuf = s.obuf := rfl
@[simp] theorem State.storeDigest_pending (d : List Byte) : (s.storeDigest d).pending = s.pending := rfl
@[simp] theorem State.storeDigest_responses (d : List Byte) : (s.storeDigest d).responses = s.responses := rfl

/-! ## `storeCode` -/

@[simp] theorem State.storeCode_cmd (o b v : Nat) (text : List Byte) : (s.storeCode o b v text).cmd = s.cmd := rfl
@[simp] theorem State.storeCode_status (o b v : Nat) (text : List Byte) :
    (s.storeCode o b v text).status = s.status := rfl
@[simp] theorem State.storeCode_alg (o b v : Nat) (text : List Byte) : (s.storeCode o b v text).alg = s.alg := rfl
@[simp] theorem State.storeCode_digits (o b v : Nat) (text : List Byte) :
    (s.storeCode o b v text).digits = s.digits := rfl
@[simp] theorem State.storeCode_period (o b v : Nat) (text : List Byte) :
    (s.storeCode o b v text).period = s.period := rfl
@[simp] theorem State.storeCode_timeLo (o b v : Nat) (text : List Byte) :
    (s.storeCode o b v text).timeLo = s.timeLo := rfl
@[simp] theorem State.storeCode_timeHi (o b v : Nat) (text : List Byte) :
    (s.storeCode o b v text).timeHi = s.timeHi := rfl
@[simp] theorem State.storeCode_ctrLo (o b v : Nat) (text : List Byte) :
    (s.storeCode o b v text).ctrLo = s.ctrLo := rfl
@[simp] theorem State.storeCode_ctrHi (o b v : Nat) (text : List Byte) :
    (s.storeCode o b v text).ctrHi = s.ctrHi := rfl
@[simp] theorem State.storeCode_keylen (o b v : Nat) (text : List Byte) :
    (s.storeCode o b v text).keylen = s.keylen := rfl
@[simp] theorem State.storeCode_ilen (o b v : Nat) (text : List Byte) : (s.storeCode o b v text).ilen = s.ilen := rfl
@[simp] theorem State.storeCode_olen (o b v : Nat) (text : List Byte) : (s.storeCode o b v text).olen = s.olen := rfl
@[simp] theorem State.storeCode_remain (o b v : Nat) (text : List Byte) :
    (s.storeCode o b v text).remain = s.remain := rfl
@[simp] theorem State.storeCode_offset (o b v : Nat) (text : List Byte) :
    (s.storeCode o b v text).offset = BitVec.ofNat 32 o := rfl
@[simp] theorem State.storeCode_bincode (o b v : Nat) (text : List Byte) :
    (s.storeCode o b v text).bincode = BitVec.ofNat 32 b := rfl
@[simp] theorem State.storeCode_value (o b v : Nat) (text : List Byte) :
    (s.storeCode o b v text).value = BitVec.ofNat 32 v := rfl
@[simp] theorem State.storeCode_code (o b v : Nat) (text : List Byte) :
    (s.storeCode o b v text).code = Memory.ofBytes text := rfl
@[simp] theorem State.storeCode_digest (o b v : Nat) (text : List Byte) :
    (s.storeCode o b v text).digest = s.digest := rfl
@[simp] theorem State.storeCode_key (o b v : Nat) (text : List Byte) : (s.storeCode o b v text).key = s.key := rfl
@[simp] theorem State.storeCode_ibuf (o b v : Nat) (text : List Byte) : (s.storeCode o b v text).ibuf = s.ibuf := rfl
@[simp] theorem State.storeCode_obuf (o b v : Nat) (text : List Byte) : (s.storeCode o b v text).obuf = s.obuf := rfl
@[simp] theorem State.storeCode_pending (o b v : Nat) (text : List Byte) :
    (s.storeCode o b v text).pending = s.pending := rfl
@[simp] theorem State.storeCode_responses (o b v : Nat) (text : List Byte) :
    (s.storeCode o b v text).responses = s.responses := rfl

/-! ## `respond` -/

@[simp] theorem State.respond_cmd (r : Response) : (s.respond r).cmd = s.cmd := rfl
@[simp] theorem State.respond_status (r : Response) : (s.respond r).status = s.status := rfl
@[simp] theorem State.respond_alg (r : Response) : (s.respond r).alg = s.alg := rfl
@[simp] theorem State.respond_digits (r : Response) : (s.respond r).digits = s.digits := rfl
@[simp] theorem State.respond_period (r : Response) : (s.respond r).period = s.period := rfl
@[simp] theorem State.respond_timeLo (r : Response) : (s.respond r).timeLo = s.timeLo := rfl
@[simp] theorem State.respond_timeHi (r : Response) : (s.respond r).timeHi = s.timeHi := rfl
@[simp] theorem State.respond_ctrLo (r : Response) : (s.respond r).ctrLo = s.ctrLo := rfl
@[simp] theorem State.respond_ctrHi (r : Response) : (s.respond r).ctrHi = s.ctrHi := rfl
@[simp] theorem State.respond_keylen (r : Response) : (s.respond r).keylen = s.keylen := rfl
@[simp] theorem State.respond_ilen (r : Response) : (s.respond r).ilen = s.ilen := rfl
@[simp] theorem State.respond_olen (r : Response) : (s.respond r).olen = s.olen := rfl
@[simp] theorem State.respond_remain (r : Response) : (s.respond r).remain = s.remain := rfl
@[simp] theorem State.respond_offset (r : Response) : (s.respond r).offset = s.offset := rfl
@[simp] theorem State.respond_bincode (r : Response) : (s.respond r).bincode = s.bincode := rfl
@[simp] theorem State.respond_value (r : Response) : (s.respond r).value = s.value := rfl
@[simp] theorem State.respond_code (r : Response) : (s.respond r).code = s.code := rfl
@[simp] theorem State.respond_digest (r : Response) : (s.respond r).digest = s.digest := rfl
@[simp] theorem State.respond_key (r : Response) : (s.respond r).key = s.key := rfl
@[simp] theorem State.respond_ibuf (r : Response) : (s.respond r).ibuf = s.ibuf := rfl
@[simp] theorem State.respond_obuf (r : Response) : (s.respond r).obuf = s.obuf := rfl
@[simp] theorem State.respond_pending (r : Response) : (s.respond r).pending = s.pending := rfl
@[simp] theorem State.respond_responses (r : Response) : (s.respond r).responses = s.responses ++ [r] := rfl

/-! ## `withPending` -/

@[simp] theorem State.withPending_cmd (es : List HostEvent) : (s.withPending es).cmd = s.cmd := rfl
@[simp] theorem State.withPending_status (es : List HostEvent) : (s.withPending es).status = s.status := rfl
@[simp] theorem State.withPending_alg (es : List HostEvent) : (s.withPending es).alg = s.alg := rfl
@[simp] theorem State.withPending_digits (es : List HostEvent) : (s.withPending es).digits = s.digits := rfl
@[simp] theorem State.withPending_period (es : List HostEvent) : (s.withPending es).period = s.period := rfl
@[simp] theorem State.withPending_timeLo (es : List HostEvent) : (s.withPending es).timeLo = s.timeLo := rfl
@[simp] theorem State.withPending_timeHi (es : List HostEvent) : (s.withPending es).timeHi = s.timeHi := rfl
@[simp] theorem State.withPending_ctrLo (es : List HostEvent) : (s.withPending es).ctrLo = s.ctrLo := rfl
@[simp] theorem State.withPending_ctrHi (es : List HostEvent) : (s.withPending es).ctrHi = s.ctrHi := rfl
@[simp] theorem State.withPending_keylen (es : List HostEvent) : (s.withPending es).keylen = s.keylen := rfl
@[simp] theorem State.withPending_ilen (es : List HostEvent) : (s.withPending es).ilen = s.ilen := rfl
@[simp] theorem State.withPending_olen (es : List HostEvent) : (s.withPending es).olen = s.olen := rfl
@[simp] theorem State.withPending_remain (es : List HostEvent) : (s.withPending es).remain = s.remain := rfl
@[simp] theorem State.withPending_offset (es : List HostEvent) : (s.withPending es).offset = s.offset := rfl
@[simp] theorem State.withPending_bincode (es : List HostEvent) : (s.withPending es).bincode = s.bincode := rfl
@[simp] theorem State.withPending_value (es : List HostEvent) : (s.withPending es).value = s.value := rfl
@[simp] theorem State.withPending_code (es : List HostEvent) : (s.withPending es).code = s.code := rfl
@[simp] theorem State.withPending_digest (es : List HostEvent) : (s.withPending es).digest = s.digest := rfl
@[simp] theorem State.withPending_key (es : List HostEvent) : (s.withPending es).key = s.key := rfl
@[simp] theorem State.withPending_ibuf (es : List HostEvent) : (s.withPending es).ibuf = s.ibuf := rfl
@[simp] theorem State.withPending_obuf (es : List HostEvent) : (s.withPending es).obuf = s.obuf := rfl
@[simp] theorem State.withPending_pending (es : List HostEvent) : (s.withPending es).pending = es := rfl
@[simp] theorem State.withPending_responses (es : List HostEvent) : (s.withPending es).responses = s.responses := rfl

/-! ## `setOperand` -/

@[simp] theorem State.setOperand_cmd (r : OperandReg) (v : Word) : (s.setOperand r v).cmd = s.cmd := by
  cases r <;> rfl
@[simp] theorem State.setOperand_status (r : OperandReg) (v : Word) : (s.setOperand r v).status = s.status := by
  cases r <;> rfl
@[simp] theorem State.setOperand_olen (r : OperandReg) (v : Word) : (s.setOperand r v).olen = s.olen := by
  cases r <;> rfl
@[simp] theorem State.setOperand_remain (r : OperandReg) (v : Word) : (s.setOperand r v).remain = s.remain := by
  cases r <;> rfl
@[simp] theorem State.setOperand_offset (r : OperandReg) (v : Word) : (s.setOperand r v).offset = s.offset := by
  cases r <;> rfl
@[simp] theorem State.setOperand_bincode (r : OperandReg) (v : Word) : (s.setOperand r v).bincode = s.bincode := by
  cases r <;> rfl
@[simp] theorem State.setOperand_value (r : OperandReg) (v : Word) : (s.setOperand r v).value = s.value := by
  cases r <;> rfl
@[simp] theorem State.setOperand_code (r : OperandReg) (v : Word) : (s.setOperand r v).code = s.code := by
  cases r <;> rfl
@[simp] theorem State.setOperand_digest (r : OperandReg) (v : Word) : (s.setOperand r v).digest = s.digest := by
  cases r <;> rfl
@[simp] theorem State.setOperand_key (r : OperandReg) (v : Word) : (s.setOperand r v).key = s.key := by
  cases r <;> rfl
@[simp] theorem State.setOperand_ibuf (r : OperandReg) (v : Word) : (s.setOperand r v).ibuf = s.ibuf := by
  cases r <;> rfl
@[simp] theorem State.setOperand_obuf (r : OperandReg) (v : Word) : (s.setOperand r v).obuf = s.obuf := by
  cases r <;> rfl
@[simp] theorem State.setOperand_pending (r : OperandReg) (v : Word) : (s.setOperand r v).pending = s.pending := by
  cases r <;> rfl
@[simp] theorem State.setOperand_responses (r : OperandReg) (v : Word) : (s.setOperand r v).responses = s.responses := by
  cases r <;> rfl

/-- The register written reads back what was written, every other register what it held. -/
@[simp] theorem State.operand_setOperand (r q : OperandReg) (v : Word) :
    (s.setOperand r v).operand q = if q = r then v else s.operand q := by
  cases r <;> cases q <;> rfl

/-! ## `resetBlock` -/

@[simp] theorem State.resetBlock_pending : s.resetBlock.pending = s.pending := rfl
@[simp] theorem State.resetBlock_responses : s.resetBlock.responses = s.responses := rfl
@[simp] theorem State.contents_resetBlock (l : Loc) : s.resetBlock.contents l = State.reset.contents l := by
  cases l <;> rfl

end Sys2Proof.Machine
end

