-- ==== Sys2Proof/Tests/Slice0.lean ====
section
/-! SUPPORT. Tests. Expected values are those of spec/95_test_vectors.md (the vector is named at each test) or of the
rule named there; none is the model's own answer. Then a witness for the hypotheses of every statement that has some. -/

namespace Sys2Proof.Tests

open Sys2Proof.Machine

/-! ## Helpers -/

/-- The outcome is a next state that passes the check. -/
def nextIs (o : Host.Outcome State Fault Refusal) (check : State → Bool) : Bool :=
  match o with
  | .next t => check t
  | .fault _ => false
  | .refused _ => false

/-- `K20`, the characters "12345678901234567890". -/
def k20 : List Byte :=
  [0x31, 0x32, 0x33, 0x34, 0x35, 0x36, 0x37, 0x38, 0x39, 0x30,
   0x31, 0x32, 0x33, 0x34, 0x35, 0x36, 0x37, 0x38, 0x39, 0x30]

/-- The digest of vector H1. -/
def h1 : List Byte :=
  [0x75, 0xA4, 0x8A, 0x19, 0xD4, 0xCB, 0xE1, 0x00, 0x64, 0x4E,
   0x8A, 0xC1, 0x39, 0x7E, 0xEA, 0x74, 0x7A, 0x2D, 0x33, 0xAB]

/-- The reset state with the inputs of vector V3. -/
def v3 : State :=
  { State.reset with
    alg := 1, digits := 8, period := 30, timeLo := 59, keylen := 20, key := Memory.ofBytes k20 }

/-- The reset state with the given codec input, and an output buffer that holds an old result. -/
def codec (input : List Byte) : State :=
  { State.reset with
    ilen := BitVec.ofNat 32 input.length, ibuf := Memory.ofBytes input, olen := 12
    obuf := Memory.ofBytes (rep 0xEE 12) }

/-- `b` is exactly what the buffer holds, zeros after it. -/
def holds (m : Memory) (b : List Byte) : Bool := m == Memory.ofBytes b

/-! ## Well formed words, and the check that refuses an ill formed one -/

/-- E9: a reserved bit is set, although bits 7:0 are the opcode of TOTP. -/
theorem test_wellFormed_refuses_reserved_bits : rsvZero 0x00000113 = false := by decide

/-- E10: 0x03 is no opcode. -/
theorem test_wellFormed_refuses_unassigned_opcode : opcodeAssigned 0x00000003 = false := by decide

theorem test_illegal_words_decode_to_nothing :
    decode 0x00000113 = .error .reservedBits ∧ decode 0xFFFFFFFF = .error .reservedBits ∧
    decode 0x80000013 = .error .reservedBits ∧ decode 0x00000000 = .error .unassignedOpcode ∧
    decode 0x00000003 = .error .unassignedOpcode ∧ decode 0x00000014 = .error .unassignedOpcode ∧
    decode 0x00000021 = .error .unassignedOpcode ∧ decode 0x000000FF = .error .unassignedOpcode := by decide

/-! ## Decoding: the words of R91, bit by bit -/

theorem test_decode_B32ENC : decode 0b00000000000000000000000000000001 = .ok .b32enc := by decide

theorem test_decode_B32DEC : decode 0b00000000000000000000000000000010 = .ok .b32dec := by decide

theorem test_decode_TSTEP : decode 0b00000000000000000000000000010000 = .ok .tstep := by decide

theorem test_decode_HMAC : decode 0b00000000000000000000000000010001 = .ok .hmac := by decide

theorem test_decode_DTRUNC : decode 0b00000000000000000000000000010010 = .ok .dtrunc := by decide

theorem test_decode_TOTP : decode 0b00000000000000000000000000010011 = .ok .totp := by decide

theorem test_decode_CLEAR : decode 0b00000000000000000000000000100000 = .ok .clear := by decide

theorem test_decodeTableWord : decodeTableWord 32 0x13 = some .totp ∧ decodeTableWord 8 0x120 = some .clear := by decide

/-! ## The codec -/

/-- BE4: "foo", one pad bit; the old result is wiped. -/
theorem test_B32ENC_foo : nextIs (exec .b32enc (codec [0x66, 0x6F, 0x6F])) (fun t =>
    t.status == 1 && t.olen == 5 && holds t.obuf [0x4D, 0x5A, 0x58, 0x57, 0x36]) = true := by decide

/-- BE22: the length is compared unsigned, and nothing but `STATUS` changes. -/
theorem test_B32ENC_length_unsigned : nextIs (exec .b32enc { codec [] with ilen := 0xFFFFFFFF }) (fun t =>
    t.status == 0x2022 && t.olen == 12 && holds t.obuf (rep 0xEE 12)) = true := by decide

/-- BD9: "mzxw-6ytb oi", lowercase and foreign characters. -/
theorem test_B32DEC_lowercase : nextIs (exec .b32dec
      (codec [0x6D, 0x7A, 0x78, 0x77, 0x2D, 0x36, 0x79, 0x74, 0x62, 0x20, 0x6F, 0x69])) (fun t =>
    t.status == 1 && t.olen == 6 && holds t.obuf [0x66, 0x6F, 0x6F, 0x62, 0x61, 0x72]) = true := by decide

/-- BD18 and BD10: the codes beside 'Z', 'a' and 'z' are foreign; dropped bits need not be zero. -/
theorem test_B32DEC_edges :
    b32Dec [0x4D, 0x5B, 0x59, 0x60, 0x7B] = [0x66] ∧ b32Dec [0x4D, 0x5A] = [0x66] := by decide

/-- BE3 and BD14 through the streaming form (R120). -/
theorem test_streaming :
    b32EncStream [0x66, 0x6F] = [0x4D, 0x5A, 0x58, 0x51] ∧
    b32DecStream [0x4D, 0x5A, 0x58, 0x57, 0x36, 0x59, 0x54, 0x42, 0x4F, 0x49, 0x41]
      = [0x66, 0x6F, 0x6F, 0x62, 0x61, 0x72] := by decide

/-! ## The engine, stage by stage -/

/-- S7: the largest time. -/
theorem test_TSTEP_largest_time : nextIs
    (exec .tstep { State.reset with period := 120, timeLo := 0xFFFFFFFF, timeHi := 0xFFFFFFFF }) (fun t =>
    t.status == 1 && t.ctrHi == 0x02222222 && t.ctrLo == 0x22222222 && t.remain == 105) = true := by decide

/-- S15: the period is compared unsigned. -/
theorem test_TSTEP_period_unsigned : nextIs (exec .tstep { State.reset with period := 0xFFFFFFFF, remain := 7 })
    (fun t => t.status == 0x112 && t.remain == 7) = true := by decide

/-- H1; an old digest longer than this one is wiped. -/
theorem test_HMAC_h1 : nextIs (exec .hmac { v3 with ctrLo := 1, digest := Memory.ofBytes (rep 0xEE 64) })
    (fun t => t.status == 1 && holds t.digest h1) = true := by decide +kernel

/-- The rejection of HMAC with `ALG = 0`, `KEYLEN = 300`. -/
theorem test_HMAC_rejected : nextIs (exec .hmac { v3 with alg := 0, keylen := 300 })
    (fun t => t.status == 0x1412 && holds t.digest []) = true := by decide

/-- X5: the highest offset with the shortest digest; the top bit is cleared. -/
theorem test_DTRUNC_top_bit : nextIs (exec .dtrunc { v3 with
      digest := Memory.ofBytes (rep 0 15 ++ [0x80, 0x00, 0x00, 0x01, 0xFF]) }) (fun t =>
    t.status == 1 && t.offset == 15 && t.bincode == 1 && t.value == 1 &&
    holds t.code [0x30, 0x30, 0x30, 0x30, 0x30, 0x30, 0x30, 0x31]) = true := by decide

/-- X2: six digits, and the two cells after them are 0. -/
theorem test_DTRUNC_six_digits : nextIs (exec .dtrunc { v3 with
      digits := 6, digest := Memory.ofBytes h1, code := Memory.ofBytes (rep 0x39 8) }) (fun t =>
    t.offset == 11 && t.bincode == 0x41397EEA && t.value == 287082 &&
    holds t.code [0x32, 0x38, 0x37, 0x30, 0x38, 0x32]) = true := by decide

/-- V3, by the step from reset with the word in the host's `CMD` write. -/
theorem test_TOTP_v3 : nextIs (step (v3.withFetchWord 32 0x13)) (fun t =>
    t.cmd == 0x13 && t.status == 1 && t.ctrHi == 0 && t.ctrLo == 1 && t.remain == 1 && holds t.digest h1 &&
    t.offset == 11 && t.bincode == 0x41397EEA && t.value == 0x059EB4EA &&
    holds t.code [0x39, 0x34, 0x32, 0x38, 0x37, 0x30, 0x38, 0x32] &&
    t.responses == [.done] && t.pending == []) = true := by decide +kernel

/-- E14: an argument and the capacity fail together, and both show. -/
theorem test_TOTP_rejected : nextIs (exec .totp { v3 with keylen := 257, digits := 0 })
    (fun t => t == { v3 with keylen := 257, digits := 0, status := 0x1212 }) = true := by decide

/-- E22: everything is zero but `CMD` and `STATUS`. -/
theorem test_CLEAR : nextIs (step ({ v3 with digest := Memory.ofBytes h1, status := 1 }.withFetchWord 32 0x20))
    (fun t => t == { State.reset with cmd := 0x20, status := 1, responses := [.done] }) = true := by decide +kernel

/-- E1 and E9: TOTP straight after reset, and its opcode with a reserved bit. -/
theorem test_step_after_reset :
    nextIs (step (State.reset.withFetchWord 32 0x13)) (fun t =>
      t == { State.reset with cmd := 0x13, status := 0xF12, responses := [.done] }) = true ∧
    nextIs (step (State.reset.withFetchWord 32 0x113)) (fun t =>
      t == { State.reset with cmd := 0x113, status := 0x32, responses := [.done] }) = true := by decide

/-! ## Hash functions -/

/-- R145, R150, R155: the first four bytes of the digests of "abc". -/
theorem test_hash_abc :
    (sha1 [0x61, 0x62, 0x63]).take 4 = [0xA9, 0x99, 0x3E, 0x36] ∧
    (sha256 [0x61, 0x62, 0x63]).take 4 = [0xBA, 0x78, 0x16, 0xBF] ∧
    (sha512 [0x61, 0x62, 0x63]).take 4 = [0xDD, 0xAF, 0x35, 0xA1] := by decide +kernel

/-- K4: a key of 65 bytes, longer than the block of SHA1, is hashed first. -/
theorem test_hmac_long_key :
    hmac .sha1 ((List.range 65).map fun i => BitVec.ofNat 8 (7 * i + 3)) (counterBytes 0x0123456789ABCDEF) =
      [0x6B, 0x7B, 0xB3, 0xDB, 0x98, 0xA5, 0xDF, 0xC9, 0x73, 0x16, 0xD1, 0x6E, 0x93, 0xDD, 0x2E, 0x32, 0x5D, 0x17,
       0xB9, 0x60] := by decide +kernel

/-! ## The port -/

/-- E15 to E18: every one is a bus error; a refused write leaves the location alone. -/
theorem test_bus_errors :
    ([0x0060, 0x0200, 0x0C00, 0x1800, 0x1FFC, 0x0042, 0x0003] : List Offset).all
      (fun off => readResponse off v3 == .busError) = true ∧
    ([0x0004, 0x1000, 0x0040, 0x003C, 0x002C, 0x00FC, 0x0401] : List Offset).all
      (fun off => nextIs (perform (.write off 1) v3) fun t => t.responses == [.busError] && t.status == 0 &&
        t.value == 0 && t.olen == 0 && t.code.isEmpty && t.obuf.isEmpty) = true := by decide +kernel

/-- E19, E20, E21: `KEY` reads 0, a cell keeps the low byte, a register the whole word. -/
theorem test_reads :
    readResponse 0x400 v3 = .data 0 ∧
    nextIs (perform (.write 0x800 0x12345678) v3) (fun t => readResponse 0x800 t == .data 0x78) = true ∧
    nextIs (perform (.write 0x010 0xFFFFFFFF) v3) (fun t => readResponse 0x010 t == .data 0xFFFFFFFF) = true := by
  decide +kernel

/-- The first and the last line of the encoding of program P1 (95_test_vectors.md section 5). -/
theorem test_line_encoding :
    encodeLine (wrLoc (.key ⟨0, by decide⟩) 0x31) =
      ['W', ' ', '0', '4', '0', '0', ' ', '0', '0', '0', '0', '0', '0', '3', '1'] ∧
    encodeLine (rdLoc (.code ⟨7, by decide⟩)) = ['R', ' ', '0', '0', '5', 'C'] := by decide

/-! ## Witnesses: for each statement with hypotheses, a state and operands that meet them -/

theorem inv_of_reset : State.Inv State.reset := by
  constructor
  case obufTail => intro i _ _; rfl
  all_goals decide

theorem inv_of_v3 : State.Inv v3 := by
  constructor
  case obufTail => intro i _ _; rfl
  all_goals decide

/-- Both premises, at the least and the greatest opcode. -/
theorem witness_DecodeAndEncodeAgree :
    Instr.b32enc.wellFormed = true ∧ Instr.clear.wellFormed = true ∧ decode 0x01 = .ok .b32enc ∧
    decode 0x20 = .ok .clear := by decide

/-- The first and the last location; reserved offsets at the edges of their ranges. -/
theorem witness_AddressMapIsOneToOne :
    (0 % 4 = 0 ∧ locate 0 = some .cmd) ∧ (0x17FC % 4 = 0 ∧ locate 0x17FC = some (.obuf ⟨511, by decide⟩)) ∧
    (0x1FFC < 0x2000 ∧ 0x1FFC % 4 = 0 ∧ ReservedOffset 0x1FFC ∧ locate 0x1FFC = none) ∧
    (0x60 % 4 = 0 ∧ ReservedOffset 0x60 ∧ locate 0x60 = none ∧ ¬ ReservedOffset 0x5C) := by decide

/-- The last cell of each of the three buffers. -/
theorem witness_CellWriteStoresTheLowByte :
    v3.Inv ∧ (∃ i, Loc.digest ⟨63, by decide⟩ = .digest i) ∧ (∃ i, Loc.key ⟨255, by decide⟩ = .key i) ∧
    (∃ i, Loc.ibuf ⟨255, by decide⟩ = .ibuf i) :=
  ⟨inv_of_v3, ⟨_, rfl⟩, ⟨_, rfl⟩, ⟨_, rfl⟩⟩

theorem witness_ReadReturnsTheLastWrite :
    v3.Inv ∧ (∃ r, Loc.operand .ilen = .operand r) ∧ (∃ i, Loc.digest ⟨0, by decide⟩ = .digest i) ∧
    (∃ i, Loc.ibuf ⟨255, by decide⟩ = .ibuf i) :=
  ⟨inv_of_v3, ⟨_, rfl⟩, ⟨_, rfl⟩, ⟨_, rfl⟩⟩

theorem witness_StepRunsTheDecodedCommand :
    (v3.withFetchWord 32 0x13).pending = .write (Loc.portOffset .cmd) 0x13 :: [] ∧ decode 0x13 = .ok .totp := by decide

/-- The words next to the assigned ones, and a reserved bit. -/
theorem witness_IllegalWordOnlySetsCmdAndStatus :
    (∀ w, (v3.withCommand w).pending = .write (Loc.portOffset .cmd) w :: []) ∧
    ∀ w ∈ ([0x00, 0x03, 0x0F, 0x14, 0x1F, 0x21, 0x113] : List Word),
      ¬ (w = 0x01 ∨ w = 0x02 ∨ w = 0x10 ∨ w = 0x11 ∨ w = 0x12 ∨ w = 0x13 ∨ w = 0x20) :=
  ⟨fun _ => rfl, by simp⟩

theorem witness_RunningACommandTwiceIsRunningItOnce : ∃ t, exec .tstep v3 = .next t :=
  ⟨_, exec_tstep (by decide)⟩

theorem witness_ResetZeroesEveryLocation :
    ({ v3 with pending := [.reset, .read 0] } : State).pending = .reset :: [.read 0] := rfl

/-- The invariant and a step that runs a command. -/
theorem witness_EveryStepKeepsTheInvariant : ∃ s t : State, s.Inv ∧ step s = .next t ∧ t.ctrLo ≠ s.ctrLo := by
  refine ⟨v3.withFetchWord 32 0x10, _, ?_, rfl, by decide⟩
  constructor
  case obufTail => intro i _ _; rfl
  all_goals decide

/-- An argument check, the capacity check, both. -/
theorem witness_RejectedCommandWritesOnlyStatus :
    argMask (commandNeeds .tstep) State.reset ≠ 0 ∧ argMask (commandNeeds .b32enc) { v3 with ilen := 257 } ≠ 0 ∧
    argMask (commandNeeds .totp) { v3 with keylen := 257, period := 121 } ≠ 0 := by decide

/-- Each command at the ends of its operands' ranges, and just outside. -/
theorem witness_CommandSucceedsExactlyInContract :
    (∀ i ∈ Instr.all, InContract i v3) ∧ InContract .b32enc { v3 with ilen := 256 } ∧
    InContract .totp { v3 with period := 120, digits := 6, alg := 3, keylen := 256 } ∧
    InContract .hmac { v3 with keylen := 1 } ∧ ¬ InContract .b32dec { v3 with ilen := 257 } ∧
    ¬ InContract .tstep { v3 with period := 121 } ∧ ¬ InContract .hmac { v3 with keylen := 257 } ∧
    ¬ InContract .dtrunc { v3 with digits := 7 } ∧ ¬ InContract .totp { v3 with alg := 4 } :=
  ⟨fun i _ => by cases i <;> decide, by decide⟩

theorem witness_CapacityErrorStatusWords :
    let s := { v3 with keylen := 257, ilen := 257, alg := 3, digits := 6, period := 120 }
    256 < s.keylen.toNat ∧ 1 ≤ s.alg.toNat ∧ s.alg.toNat ≤ 3 ∧ (s.digits.toNat = 6 ∨ s.digits.toNat = 8) ∧
    1 ≤ s.period.toNat ∧ s.period.toNat ≤ 120 ∧ 256 < s.ilen.toNat := by decide

theorem witness_EveryCommandLeavesALegalStatus : ∃ t, exec .totp State.reset = .next t := ⟨_, rfl⟩

/-- The greatest input, and one more. -/
theorem witness_EncodeCommandWritesTheText :
    ({ v3 with ilen := 256 } : State).ilen.toNat ≤ 256 ∧ 256 < ({ v3 with ilen := 257 } : State).ilen.toNat := by decide

/-- An input of which one character is kept and one is not. -/
theorem witness_DecodeCommandWritesTheBytes :
    (codec [0x4D, 0x20, 0x59]).ilen.toNat ≤ 256 ∧ 256 < ({ v3 with ilen := 257 } : State).ilen.toNat ∧
    ((List.range 3).filterMap fun i => val (upper ((codec [0x4D, 0x20, 0x59]).ibuf.read i))) = [12, 24] := by decide

/-- "My" and "mY", and the codes next to the alphabet. -/
theorem witness_DecodeIgnoresCaseAndForeignCharacters :
    List.Forall₂ (fun c c' : Byte => c = c' ∨
      (0x41 ≤ c.toNat ∧ c.toNat ≤ 0x5A ∧ c'.toNat = c.toNat + 0x20) ∨
      (0x41 ≤ c'.toNat ∧ c'.toNat ≤ 0x5A ∧ c.toNat = c'.toNat + 0x20)) [0x4D, 0x7A, 0x37] [0x6D, 0x5A, 0x37] ∧
    ∀ c ∈ ([0x31, 0x38, 0x40, 0x5B, 0x60, 0x7B, 0x00, 0xFF] : List Byte),
      ¬ ((0x32 ≤ c.toNat ∧ c.toNat ≤ 0x37) ∨ (0x41 ≤ c.toNat ∧ c.toNat ≤ 0x5A) ∨
        (0x61 ≤ c.toNat ∧ c.toNat ≤ 0x7A)) := by decide

theorem witness_EncodedTextIsInTheAlphabet : (0x4D : Byte) ∈ b32Enc [0x66] := by decide

theorem witness_EncodeOfDecodeOnlyOnCanonicalText : b32Enc (b32Dec [0x4D, 0x59]) = [0x4D, 0x59] := by decide

theorem witness_CodecOutputFitsTheBuffer :
    (∃ t, exec .b32enc { v3 with ilen := 256 } = .next t ∧ statusDone t.status = true) ∧
    (∃ t, exec .b32dec { v3 with ilen := 256 } = .next t ∧ statusDone t.status = true) :=
  ⟨⟨_, exec_b32enc (by decide), rfl⟩, ⟨_, exec_b32dec (by decide), rfl⟩⟩

/-- The longest message that fits one block with its padding, and one byte more. -/
theorem witness_PaddingFillsWholeBlocks :
    8 * (rep 0x61 55).length < 2 ^ (8 * HashAlg.sha1.lengthField) ∧
    8 * (rep 0x61 112).length < 2 ^ (8 * HashAlg.sha512.lengthField) := by decide

/-- Keys on the two sides of one block. -/
theorem witness_HmacKeyLengthClasses :
    1 ≤ (rep 0x61 63).length ∧ (rep 0x61 63).length < HashAlg.sha1.blockLen ∧ HashAlg.sha1.blockLen < (rep 0x61 65).length ∧
    (rep 0x61 127).length < HashAlg.sha512.blockLen ∧ HashAlg.sha512.blockLen < (rep 0x61 129).length := by decide

theorem witness_HmacCommandWritesTheDigest :
    (HashAlg.ofReg? v3.alg = some .sha1 ∧ 1 ≤ v3.keylen.toNat ∧ v3.keylen.toNat ≤ 256) ∧
    HashAlg.ofReg? 3 = some .sha512 ∧ argMask [.alg, .secret] State.reset ≠ 0 := by decide

theorem witness_TstepWritesCounterAndRemaining :
    (1 ≤ ({ v3 with period := 120 } : State).period.toNat ∧ ({ v3 with period := 120 } : State).period.toNat ≤ 120) ∧
    State.reset.period.toNat = 0 ∧ 120 < ({ v3 with period := 121 } : State).period.toNat := by decide

theorem witness_DtruncExtractsTheDigits :
    (HashAlg.ofReg? v3.alg = some .sha1 ∧ (v3.digits.toNat = 6 ∨ v3.digits.toNat = 8)) ∧
    argMask [.digits, .alg] State.reset ≠ 0 := by decide

theorem witness_TotpComputesTheCode :
    (HashAlg.ofReg? v3.alg = some .sha1 ∧ InContract .totp v3) ∧
    argMask [.period, .digits, .alg, .secret] State.reset ≠ 0 := by decide

theorem witness_StagesOneByOneEqualTotp : argMask (commandNeeds .totp) v3 = 0 := by decide

theorem witness_RemainIsBetweenOneAndPeriod :
    (∃ t, exec .tstep v3 = .next t ∧ statusDone t.status = true) ∧
    (∃ t, exec .totp v3 = .next t ∧ statusDone t.status = true) :=
  ⟨⟨_, exec_tstep (by decide), rfl⟩, ⟨_, exec_totp (a := .sha1) (by decide) (by decide), rfl⟩⟩

theorem witness_CodeSpellsTheValue :
    (∃ t, exec .dtrunc v3 = .next t ∧ statusDone t.status = true) ∧
    (∃ t, exec .totp v3 = .next t ∧ statusDone t.status = true) :=
  ⟨⟨_, exec_dtrunc (a := .sha1) (by decide) (by decide), rfl⟩,
   ⟨_, exec_totp (a := .sha1) (by decide) (by decide), rfl⟩⟩

/-- The least and the greatest period and counter. -/
theorem witness_CounterBoundary :
    (1 ≤ 1 ∧ 1 ≤ 120 ∧ 1 ≤ 1 ∧ 1 < 2 ^ 64) ∧ (1 ≤ 120 ∧ 120 ≤ 120 ∧ 1 ≤ 2 ^ 64 - 1 ∧ 2 ^ 64 - 1 < 2 ^ 64) := by decide

/-- Seconds 58 and 59, and 30 and 31, of vector V3. -/
theorem witness_OneSecondLaterInTheSamePeriod :
    ∃ s s' t : State, s' = { s with timeLo := s'.timeLo, timeHi := s'.timeHi } ∧
      s'.time.toNat = s.time.toNat + 1 ∧ s.time.toNat / s.period.toNat = s'.time.toNat / s.period.toNat ∧
      InContract .totp s ∧ exec .totp s = .next t :=
  ⟨{ v3 with timeLo := 58 }, v3, _, rfl, by decide, by decide, by decide,
   exec_totp (a := .sha1) (by decide) (by decide)⟩

theorem witness_CounterDrivenUse : InContract .hmac v3 ∧ InContract .dtrunc v3 := by decide

theorem witness_CommandsWriteOnlyTheirResults :
    (∃ t, exec .clear v3 = .next t) ∧ (∃ t, exec .hmac State.reset = .next t ∧ statusDone t.status = false) :=
  ⟨⟨_, exec_clear v3⟩, ⟨_, rfl, by decide⟩⟩

/-- Two states that differ in a `KEY` cell beyond the secret and in registers HMAC does not read. -/
theorem witness_ResultsDependOnlyOnTheOperands :
    let s' := { v3 with key := Memory.ofBytes (k20 ++ [0xFF]), digits := 7, ilen := 300 }
    (∀ l, commandReads v3 .hmac l = true → v3.contents l = s'.contents l) ∧
    (∃ t, exec .hmac v3 = .next t ∧ statusDone t.status = true) ∧ (∃ t', exec .hmac s' = .next t') := by
  refine ⟨fun l h => ?_, ⟨_, exec_hmac (a := .sha1) (by decide) (by decide), rfl⟩,
    ⟨_, exec_hmac (a := .sha1) (by decide) (by decide)⟩⟩
  cases l with
  | key k => revert k; decide +kernel
  | operand r => cases r <;> first | rfl | exact absurd h (by decide)
  | _ => exact absurd h Bool.false_ne_true

theorem witness_RunnerIsTheMachineForEveryBase : v3.pending = [] := rfl

theorem witness_LoadKeyWritesTheSecret : v3.Inv ∧ (rep 0xFF 256).length ≤ 256 ∧ ([] : List Byte).length ≤ 256 ∧
    PortErrorFree v3 :=
  ⟨inv_of_v3, by simp, by simp, by decide⟩

theorem witness_LoadInputAndDigestWriteTheirBuffers :
    v3.Inv ∧ (rep 0xFF 256).length ≤ 256 ∧ (rep 0xFF 64).length ≤ 64 ∧ PortErrorFree v3 :=
  ⟨inv_of_v3, by simp, by simp, by decide⟩

theorem witness_HmacIsTheNestedHash : 1 ≤ k20.length ∧ 1 ≤ (rep 0x61 129).length :=
  ⟨by decide, by simp⟩

/-- Each whole buffer. -/
theorem witness_ReadBufferReturnsTheBytes : 8 ≤ 8 ∧ 64 ≤ 64 ∧ 256 ≤ 256 ∧ 512 ≤ 512 := by decide

end Sys2Proof.Tests
end

