-- ==== Sys2Proof/Proofs/Base32Characters.lean ====
section
/-! The characters a Base32 text keeps, and their values (spec/40_base32_codec.md, R113, R114). -/

namespace Sys2Proof.Machine

/-- R113 on numbers: the subtraction of 0x20 does not wrap. -/
theorem upper_toNat (c : Byte) :
    (upper c).toNat = if 0x61 ≤ c.toNat ∧ c.toNat ≤ 0x7A then c.toNat - 0x20 else c.toNat := by
  unfold upper
  split
  · next h => exact BitVec.toNat_sub_of_le (BitVec.le_def.mpr (Nat.le_trans (by decide) h.1))
  · rfl

theorem upper_of_not_lowercase {c : Byte} (h : ¬(0x61 ≤ c.toNat ∧ c.toNat ≤ 0x7A)) : upper c = c := if_neg h

/-- A lowercase letter has the value of its uppercase form (R113). -/
theorem val_upper_of_lowercase {c : Byte} (h : 0x61 ≤ c.toNat ∧ c.toNat ≤ 0x7A) :
    val (upper c) = some (c.toNat - 0x61) := by
  have hup : (upper c).toNat = c.toNat - 0x20 := by rw [upper_toNat, if_pos h]
  have hletter : 0x41 ≤ (upper c).toNat ∧ (upper c).toNat ≤ 0x5A := by omega
  rw [val, if_pos hletter, hup, Nat.sub_sub]

/-- Settles O26: a lowercase letter goes through its uppercase form, any other byte is its own uppercase form. -/
theorem keptCharactersAndTheirValues : Obligations.KeptCharactersAndTheirValues := by
  intro c
  by_cases hlower : 0x61 ≤ c.toNat ∧ c.toNat ≤ 0x7A
  · have hupper : ¬(0x41 ≤ c.toNat ∧ c.toNat ≤ 0x5A) := by omega
    rw [val_upper_of_lowercase hlower, if_neg hupper, if_pos hlower]
  · rw [upper_of_not_lowercase hlower, if_neg hlower, val]

end Sys2Proof.Machine
end

