-- ==== Sys2Proof/Proofs/AddressMap.lean ====
section
/-! The address map (spec/20_memory.md R61, R64): the registers below 0x040, then one range per buffer; `locate` is the
inverse of `Loc.byteOffset`. -/

namespace Sys2Proof.Machine

/-! ## The cells of one buffer -/

theorem cellOffset_lt {first n bound : Nat} (i : Fin n) (h : first + 4 * n ≤ bound) : first + 4 * i.val < bound := by
  omega

theorem cellAt_cellOffset {first n : Nat} (i : Fin n) : cellAt first n (first + 4 * i.val) = some i := by
  simp [cellAt]

/-- From an aligned offset, a cell found is the cell at that offset. -/
theorem cellOffset_of_cellAt {first n off : Nat} {i : Fin n} (hoff : off % 4 = 0) (hfirst : first % 4 = 0)
    (h : cellAt first n off = some i) : first + 4 * i.val = off := by
  unfold cellAt at h
  split at h
  · next hin =>
    obtain rfl := Option.some.inj h
    dsimp only
    omega
  · cases h

theorem cellAt_eq_none_iff {first n off : Nat} (hoff : off % 4 = 0) (hfirst : first % 4 = 0) (hle : first ≤ off) :
    cellAt first n off = none ↔ first + 4 * n ≤ off := by
  have hcell : (first ≤ off ∧ (off - first) / 4 < n) ↔ off < first + 4 * n := by omega
  rw [← Nat.not_lt, ← hcell]
  simp [cellAt]

/-! ## The ranges of `locate` -/

theorem locate_register {off : Nat} (h : off < 0x040) : locate off = registersInOrder[off / 4]? := if_pos h

theorem locate_code {off : Nat} (h : 0x040 ≤ off) (h' : off < 0x100) :
    locate off = (cellAt 0x040 Config.codeCells off).map .code := by
  rw [locate, if_neg (by omega), if_pos h']

theorem locate_digest {off : Nat} (h : 0x100 ≤ off) (h' : off < 0x400) :
    locate off = (cellAt 0x100 Config.digestCells off).map .digest := by
  rw [locate, if_neg (by omega), if_neg (by omega), if_pos h']

theorem locate_key {off : Nat} (h : 0x400 ≤ off) (h' : off < 0x800) :
    locate off = (cellAt 0x400 Config.keyMax off).map .key := by
  rw [locate, if_neg (by omega), if_neg (by omega), if_neg (by omega), if_pos h']

theorem locate_ibuf {off : Nat} (h : 0x800 ≤ off) (h' : off < 0x1000) :
    locate off = (cellAt 0x800 Config.ibufMax off).map .ibuf := by
  rw [locate, if_neg (by omega), if_neg (by omega), if_neg (by omega), if_neg (by omega), if_pos h']

theorem locate_obuf {off : Nat} (h : 0x1000 ≤ off) :
    locate off = (cellAt 0x1000 Config.obufMax off).map .obuf := by
  rw [locate, if_neg (by omega), if_neg (by omega), if_neg (by omega), if_neg (by omega), if_neg (by omega)]

/-- Above the registers every offset is in the range of one buffer, and an aligned offset of that range is reserved
exactly from the end of the buffer's cells on. -/
theorem locate_eq_cellAt {off : Nat} (h : 0x040 ≤ off) : ∃ (first n : Nat) (cell : Fin n → Loc),
    locate off = (cellAt first n off).map cell ∧ first % 4 = 0 ∧ first ≤ off ∧
    (∀ i, (cell i).byteOffset = first + 4 * i.val) ∧
    (off < 0x2000 → off % 4 = 0 → (ReservedOffset off ↔ first + 4 * n ≤ off)) := by
  unfold ReservedOffset
  by_cases hcode : off < 0x100
  · exact ⟨0x040, 8, .code, locate_code h hcode, rfl, h, fun _ => rfl, by omega⟩
  by_cases hdigest : off < 0x400
  · exact ⟨0x100, 64, .digest, locate_digest (by omega) hdigest, rfl, by omega, fun _ => rfl, by omega⟩
  by_cases hkey : off < 0x800
  · exact ⟨0x400, 256, .key, locate_key (by omega) hkey, rfl, by omega, fun _ => rfl, by omega⟩
  by_cases hibuf : off < 0x1000
  · exact ⟨0x800, 256, .ibuf, locate_ibuf (by omega) hibuf, rfl, by omega, fun _ => rfl, by omega⟩
  · exact ⟨0x1000, 512, .obuf, locate_obuf (by omega), rfl, by omega, fun _ => rfl, by omega⟩

/-! ## From a location to its offset and back -/

theorem byteOffset_aligned (l : Loc) : l.byteOffset % 4 = 0 := by
  cases l <;> simp only [Loc.byteOffset] <;> omega

theorem byteOffset_lt_window (l : Loc) : l.byteOffset < Config.windowBytes := by
  cases l with
  | cmd | status => decide
  | operand r => cases r <;> decide
  | result r => cases r <;> decide
  | code i | digest i | key i | ibuf i | obuf i => exact cellOffset_lt i (by decide)

/-- The location at a location's own offset is that location. -/
@[simp] theorem locate_byteOffset (l : Loc) : locate l.byteOffset = some l := by
  cases l with
  | cmd | status => rfl
  | operand r => cases r <;> rfl
  | result r => cases r <;> rfl
  | code i =>
    rw [Loc.byteOffset, locate_code (Nat.le_add_right ..) (cellOffset_lt i (by decide)), cellAt_cellOffset]; rfl
  | digest i =>
    rw [Loc.byteOffset, locate_digest (Nat.le_add_right ..) (cellOffset_lt i (by decide)), cellAt_cellOffset]; rfl
  | key i =>
    rw [Loc.byteOffset, locate_key (Nat.le_add_right ..) (cellOffset_lt i (by decide)), cellAt_cellOffset]; rfl
  | ibuf i =>
    rw [Loc.byteOffset, locate_ibuf (Nat.le_add_right ..) (cellOffset_lt i (by decide)), cellAt_cellOffset]; rfl
  | obuf i => rw [Loc.byteOffset, locate_obuf (Nat.le_add_right ..), cellAt_cellOffset]; rfl

/-- The sixteen registers stand in `registersInOrder` at the places of their offsets. -/
theorem byteOffset_registersInOrder (k : Fin 16) : registersInOrder[k.val]?.map Loc.byteOffset = some (4 * k.val) := by
  revert k; decide

/-- An aligned offset that leads to a location is that location's offset. -/
theorem byteOffset_of_locate {off : Nat} {l : Loc} (hoff : off % 4 = 0) (h : locate off = some l) :
    l.byteOffset = off := by
  by_cases hreg : off < 0x040
  · have hplace := byteOffset_registersInOrder ⟨off / 4, by omega⟩
    rw [← locate_register hreg, h] at hplace
    exact (Option.some.inj hplace).trans (Nat.mul_div_cancel' (Nat.dvd_of_mod_eq_zero hoff))
  · obtain ⟨first, n, cell, hcell, hfirst, -, hoffset, -⟩ := locate_eq_cellAt (Nat.le_of_not_lt hreg)
    rw [hcell, Option.map_eq_some_iff] at h
    obtain ⟨i, hi, rfl⟩ := h
    rw [hoffset, cellOffset_of_cellAt hoff hfirst hi]

/-- In the window an aligned offset leads nowhere exactly when it is reserved. -/
theorem locate_eq_none_iff {off : Nat} (hlt : off < 0x2000) (hoff : off % 4 = 0) :
    locate off = none ↔ ReservedOffset off := by
  by_cases hreg : off < 0x040
  · rw [locate_register hreg, List.getElem?_eq_none_iff, show registersInOrder.length = 16 from rfl]
    unfold ReservedOffset
    omega
  · obtain ⟨first, n, cell, hcell, hfirst, hle, -, hreserved⟩ := locate_eq_cellAt (Nat.le_of_not_lt hreg)
    rw [hcell, Option.map_eq_none_iff, cellAt_eq_none_iff hoff hfirst hle, hreserved hlt hoff]

/-- Settles O4: the offsets are those of the definition, and `locate` is the inverse of `Loc.byteOffset`, defined
outside the reserved ranges. -/
theorem addressMapIsOneToOne : Obligations.AddressMapIsOneToOne := by
  refine ⟨⟨rfl, rfl, fun r => ?_, fun r => ?_, ?_⟩, ?_, ?_, ?_⟩
  · cases r <;> rfl
  · cases r <;> rfl
  · exact ⟨fun _ => rfl, fun _ => rfl, fun _ => rfl, fun _ => rfl, fun _ => rfl⟩
  · exact fun l => ⟨byteOffset_lt_window l, byteOffset_aligned l, locate_byteOffset l⟩
  · exact fun _ _ hoff h => byteOffset_of_locate hoff h
  · exact fun _ hlt hoff => locate_eq_none_iff hlt hoff

/-! ## The offset as the port carries it -/

theorem toNat_portOffset (l : Loc) : l.portOffset.toNat = l.byteOffset :=
  (BitVec.toNat_ofNat _ _).trans (Nat.mod_eq_of_lt (byteOffset_lt_window l))

/-- An access at a location's offset reaches that location. -/
@[simp] theorem accessed_portOffset (l : Loc) : accessed l.portOffset = some l := by
  rw [accessed, toNat_portOffset, if_pos (byteOffset_aligned l), locate_byteOffset]

end Sys2Proof.Machine
end

