-- ==== Sys2Proof/Proofs/HashLengths.lean ====
section
/-! The parameters of the hash functions (spec/41_hmac_hash.md R140) and the lengths of the digests (R156). -/

namespace Sys2Proof.Machine

theorem HashAlg.digestLen_le (alg : HashAlg) : alg.digestLen ≤ Config.digestCells := by
  cases alg <;> decide

@[simp] theorem length_bytesBE (k v : Nat) : (bytesBE k v).length = k := by simp [bytesBE]

theorem length_sha1 (msg : List Byte) : (sha1 msg).length = 20 := by simp [sha1]

theorem length_sha2Digest {w : Nat} (p : Sha2Params w) (blockLen : Nat) (padded : List Byte) :
    (sha2Digest p blockLen padded).length = 8 * (w / 8) := by
  simp only [sha2Digest, List.length_flatMap, length_bytesBE, List.map_cons, List.map_nil, List.sum_cons, List.sum_nil]
  omega

/-- A digest has the length of its hash function (R156). -/
@[simp] theorem length_hashOf (alg : HashAlg) (msg : List Byte) : (hashOf alg msg).length = alg.digestLen := by
  cases alg with
  | sha1 => exact length_sha1 msg
  | sha256 => exact length_sha2Digest ..
  | sha512 => exact length_sha2Digest ..

@[simp] theorem length_hmac (alg : HashAlg) (key msg : List Byte) : (hmac alg key msg).length = alg.digestLen :=
  length_hashOf ..

/-- Settles O35: the three numbers, none for another value, and the rows of the parameter table. -/
theorem algorithmNumbersAndLengths : Obligations.AlgorithmNumbersAndLengths := by
  constructor
  case right => intro a; cases a <;> rfl
  intro v a
  unfold HashAlg.ofReg?
  split_ifs with h1 h2 h3
  · subst h1; cases a <;> decide
  · subst h2; cases a <;> decide
  · subst h3; cases a <;> decide
  · refine ⟨nofun, fun h => ?_⟩
    cases a with
    | sha1 => exact absurd (BitVec.eq_of_toNat_eq h) h1
    | sha256 => exact absurd (BitVec.eq_of_toNat_eq h) h2
    | sha512 => exact absurd (BitVec.eq_of_toNat_eq h) h3

end Sys2Proof.Machine
end

