-- ==== Sys2Proof/Proofs/CommandValues.lean ====
section
/-! The ranges and lengths of the values the commands store (spec/40_base32_codec.md R111 to R116,
spec/42_totp_engine.md R185 to R190). -/

namespace Sys2Proof.Machine

theorem toNat_ofNat_word_le (n : Nat) : (BitVec.ofNat 32 n).toNat ≤ n := by
  rw [BitVec.toNat_ofNat]
  exact Nat.mod_le _ _

/-! ## The codec -/

theorem length_b32Enc (b : List Byte) : (b32Enc b).length = encLength b.length := by simp [b32Enc]

theorem length_b32Dec (t : List Byte) : (b32Dec t).length = decLength (keptValues t).length := by simp [b32Dec]

theorem length_keptValues_le (t : List Byte) : (keptValues t).length ≤ t.length := List.length_filterMap_le ..

theorem length_codecInput (s : State) : s.codecInput.length = s.ilen.toNat := Memory.length_bytes ..

/-- 256 bytes encode to at most 410 characters. -/
theorem length_b32Enc_codecInput_le {s : State} (h : s.ilen.toNat ≤ 256) : (b32Enc s.codecInput).length ≤ 410 := by
  rw [length_b32Enc, length_codecInput, encLength]
  omega

/-- 256 characters decode to at most 160 bytes. -/
theorem length_b32Dec_codecInput_le {s : State} (h : s.ilen.toNat ≤ 256) : (b32Dec s.codecInput).length ≤ 160 := by
  have hkept := length_keptValues_le s.codecInput
  rw [length_codecInput] at hkept
  rw [length_b32Dec, decLength]
  omega

/-! ## The engine -/

theorem remainingOf_le (t p : Nat) : remainingOf t p ≤ p := Nat.sub_le ..

theorem truncOffset_le (d : List Byte) : truncOffset d ≤ 15 := Nat.and_le_right

theorem truncBincode_lt (d : List Byte) : truncBincode d < 2 ^ 31 :=
  Nat.lt_of_le_of_lt Nat.and_le_right (by decide)

theorem codeValue_lt (digits : Nat) (d : List Byte) : codeValue digits d < 10 ^ digits :=
  Nat.mod_lt _ (Nat.pow_pos (by decide))

@[simp] theorem length_codeText (digits v : Nat) : (codeText digits v).length = digits := by simp [codeText]

/-- The text is `digits` digit characters and nothing after them (R189). -/
theorem getD_codeText (digits v i : Nat) : (codeText digits v).getD i 0 =
    if i < digits then digitChar (v / 10 ^ (digits - 1 - i) % 10) else 0 := by
  by_cases h : i < digits <;> simp [codeText, h]

theorem toNat_digitChar {d : Nat} (h : d < 10) : (digitChar d).toNat = 0x30 + d := by
  rw [digitChar, BitVec.toNat_ofNat]
  omega

theorem isDigit_digitChar {d : Nat} (h : d < 10) : IsDigit (digitChar d) := by
  rw [IsDigit, toNat_digitChar h]
  omega

/-- The code buffer after six or eight digits were written to it (R44 item 4). -/
theorem codeShape_codeText {digits : Nat} (h : digits = 6 ∨ digits = 8) (v : Nat) :
    CodeShape (Memory.ofBytes (codeText digits v)) := by
  have digit : ∀ i < digits, IsDigit ((Memory.ofBytes (codeText digits v)).read i) := fun i hi => by
    rw [Memory.read_ofBytes, getD_codeText, if_pos hi]
    exact isDigit_digitChar (Nat.mod_lt _ (by decide))
  have zero : ∀ i, digits ≤ i → (Memory.ofBytes (codeText digits v)).read i = 0 := fun i hi => by
    rw [Memory.read_ofBytes, getD_codeText, if_neg (Nat.not_lt.mpr hi)]
  obtain rfl | rfl := h
  · exact .inr (.inl ⟨digit, zero 6 (by decide), zero 7 (by decide)⟩)
  · exact .inr (.inr digit)

end Sys2Proof.Machine
end

