-- ==== Sys2Proof/Proofs/CommandStatus.lean ====
section
/-! What a command leaves in `STATUS` (spec/10_state.md R23, spec/60_exceptions.md R222, R223), what no command touches,
and that every command ends in a next state. -/

namespace Sys2Proof.Machine

/-! ## The status words of commands -/

/-- What a command may leave in `STATUS`: a legal value, exactly one of `DONE` and `ERR`, and no `IllegalCommand`. -/
abbrev CommandStatus (st : Word) : Prop :=
  StatusLegal st ∧ (statusDone st = true ↔ statusErr st = false) ∧ (statusErrcode st).toNat ≤ 2

theorem commandStatus_success : CommandStatus statusSuccess := by decide

theorem argMask_of_not_mem_ibuf {needs : List Need} (h : Need.ibuf ∉ needs) (s : State) :
    argMask needs s &&& 0x20 = 0 := by
  simp only [argMask, h, false_and, if_false]
  split_ifs <;> decide

theorem argMask_ibuf_only (s : State) : argMask [.ibuf] s = 0 ∨ argMask [.ibuf] s = 0x20 := by
  by_cases h : ilenOver s.ilen
  · exact .inr (by simp [argMask, h])
  · exact .inl (by simp [argMask, h])

/-- A command that needs the input buffer checked needs nothing else, so a mask with bit 5 set has no other bit. -/
theorem argMask_ibuf_alone {i : Instr} {s : State} (h : argMask (commandNeeds i) s ≠ 0) :
    argMask (commandNeeds i) s &&& 0x20 = 0 ∨ argMask (commandNeeds i) s = 0x20 := by
  cases i with
  | b32enc | b32dec => exact .inr ((argMask_ibuf_only s).resolve_left h)
  | tstep | hmac | dtrunc | totp | clear => exact .inl (argMask_of_not_mem_ibuf (by decide) s)

/-- The 64 check masks: bit 13 of `STATUS` is never set beside `ERRCODE` 1 (R223). -/
theorem commandStatus_rejected_of_mask : ∀ m : ArgBits, m ≠ 0 → m &&& 0x20 = 0 ∨ m = 0x20 →
    CommandStatus (statusRejected (rejectionClass m) (m.setWidth 8)) := by decide

theorem statusDone_rejected (m : ArgBits) :
    statusDone (statusRejected (rejectionClass m) (m.setWidth 8)) = false := by
  revert m; decide

/-- A rejection leaves a status word of a command. -/
theorem commandStatus_rejected {i : Instr} {s : State} (h : ¬ InContract i s) :
    CommandStatus (s.reject (argMask (commandNeeds i) s)).status := by
  have hmask : argMask (commandNeeds i) s ≠ 0 := fun hm => h ((argMask_eq_zero_iff i s).mp hm)
  exact commandStatus_rejected_of_mask _ hmask (argMask_ibuf_alone hmask)

/-! ## Every command -/

/-- No command is refused or faults. -/
theorem exec_next (i : Instr) (s : State) : ∃ t, exec i s = .next t := by
  by_cases h : InContract i s
  · cases i with
    | b32enc => exact ⟨_, exec_b32enc h⟩
    | b32dec => exact ⟨_, exec_b32dec h⟩
    | tstep => exact ⟨_, exec_tstep h⟩
    | hmac => obtain ⟨a, ha⟩ := h.alg (by decide); exact ⟨_, exec_hmac ha h⟩
    | dtrunc => obtain ⟨a, ha⟩ := h.alg (by decide); exact ⟨_, exec_dtrunc ha h⟩
    | totp => obtain ⟨a, ha⟩ := h.alg (by decide); exact ⟨_, exec_totp ha h⟩
    | clear => exact ⟨_, exec_clear s⟩
  · exact ⟨_, exec_of_not_inContract h⟩

/-- A command in contract leaves `STATUS` at success. -/
theorem CommandEffect.status {i : Instr} {s t : State} (h : CommandEffect i s t) : t.status = statusSuccess := by
  cases i with
  | b32enc | b32dec | tstep | clear => obtain rfl := h; rfl
  | hmac | dtrunc | totp => obtain ⟨a, -, rfl⟩ := h; rfl

/-- `CMD` and the host's side are no command's. -/
theorem CommandEffect.frame {i : Instr} {s t : State} (h : CommandEffect i s t) :
    t.cmd = s.cmd ∧ t.pending = s.pending ∧ t.responses = s.responses := by
  cases i with
  | b32enc | b32dec | tstep | clear => obtain rfl := h; exact ⟨rfl, rfl, rfl⟩
  | hmac | dtrunc | totp => obtain ⟨a, -, rfl⟩ := h; exact ⟨rfl, rfl, rfl⟩

theorem exec_frame {i : Instr} {s t : State} (h : exec i s = .next t) :
    t.cmd = s.cmd ∧ t.pending = s.pending ∧ t.responses = s.responses := by
  obtain ⟨-, rfl⟩ | ⟨-, heffect⟩ := exec_cases h
  · exact ⟨rfl, rfl, rfl⟩
  · exact heffect.frame

theorem exec_commandStatus {i : Instr} {s t : State} (h : exec i s = .next t) : CommandStatus t.status := by
  obtain ⟨hc, rfl⟩ | ⟨-, heffect⟩ := exec_cases h
  · exact commandStatus_rejected hc
  · rw [heffect.status]; exact commandStatus_success

/-- Settles O25: a rejection leaves the word of its check mask, a completed command the success word. -/
theorem everyCommandLeavesALegalStatus : Obligations.EveryCommandLeavesALegalStatus :=
  fun _ _ _ h => exec_commandStatus h

/-- The buffers that `CLEAR` writes with zeros are the empty lists of the reset state. -/
theorem State.zeroise_eq (s : State) : s.zeroise =
    { State.reset with cmd := s.cmd, status := s.status, pending := s.pending, responses := s.responses } := by
  have zeros (n : Nat) : Memory.ofBytes (rep 0 n) = [] := Memory.ofBytes_rep_zero n
  simp only [State.zeroise, zeros]
  rfl

/-- Settles O18: in the reset state the codec commands and `CLEAR` are in contract and store zeros over zeros, the
engine commands are rejected with the mask of every check they need. -/
theorem commandsStraightAfterReset : Obligations.CommandsStraightAfterReset := by
  intro i
  cases i with
  | b32enc => exact exec_b32enc (by decide)
  | b32dec => exact exec_b32dec (by decide)
  | clear => rw [exec_clear, State.zeroise_eq]; rfl
  | tstep | hmac | dtrunc | totp => exact exec_of_not_inContract (by decide)

end Sys2Proof.Machine
end

