-- ==== Sys2Proof/Proofs/Port.lean ====
section
/-! The host port, one rule per access and per event (spec/20_memory.md R62 to R78, spec/10_state.md R22), and the
statements about single accesses and steps. -/

namespace Sys2Proof.Machine

/-! ## Reads -/

theorem perform_read (off : Offset) (s : State) : perform (.read off) s = .next (s.respond (readResponse off s)) := rfl

theorem readResponse_of_accessed {off : Offset} {l : Loc} (h : accessed off = some l) (s : State) :
    readResponse off s = .data (portValue s l) := by
  simp only [readResponse, memRead, h]

theorem readResponse_of_not_accessed {off : Offset} (h : accessed off = none) (s : State) :
    readResponse off s = .busError := by
  simp only [readResponse, memRead, h]

/-- A read at a location's offset answers what the port shows of it. -/
@[simp] theorem readResponse_portOffset (l : Loc) (s : State) :
    readResponse l.portOffset s = .data (portValue s l) := readResponse_of_accessed (accessed_portOffset l) s

/-- The port shows nothing that depends on `KEY` (R38, R69). -/
theorem portValue_setKey (s : State) (m : Memory) (l : Loc) : portValue { s with key := m } l = portValue s l := by
  cases l with
  | operand r => cases r <;> rfl
  | result r => cases r <;> rfl
  | _ => rfl

/-- Settles O11: an offset leads to a location whose shown value is the same, or to none, whatever `KEY` holds. -/
theorem noPortReadDependsOnTheKey : Obligations.NoPortReadDependsOnTheKey := by
  refine fun s other off => ⟨?_, fun i => readResponse_portOffset (.key i) s⟩
  cases hl : accessed off with
  | none => rw [readResponse_of_not_accessed hl, readResponse_of_not_accessed hl]
  | some l => rw [readResponse_of_accessed hl, readResponse_of_accessed hl, portValue_setKey]

/-! ## Writes -/

theorem perform_write {off : Offset} {v : Word} {s t : State} (h : memWrite off v s = .next t) :
    perform (.write off v) s = .next (t.respond .done) := by
  simp only [perform, h]

theorem memWrite_cmd (v : Word) (s : State) : memWrite (Loc.portOffset .cmd) v s = writeCmd v s := by
  rw [memWrite, accessed_portOffset]

theorem perform_write_operand (r : OperandReg) (v : Word) (s : State) :
    perform (.write (Loc.operand r).portOffset v) s = .next ((s.setOperand r v).respond .done) :=
  perform_write (by rw [memWrite, accessed_portOffset])

/-- A word that decodes runs its command at the state in which `CMD` holds the word (R22, R73). -/
theorem writeCmd_of_decode {v : Word} {i : Instr} (h : decode v = .ok i) (s : State) :
    writeCmd v s = exec i (s.setCmd v) := by
  rw [writeCmd, h]

/-- A word that does not decode raises `IllegalCommand` (R93, R225). -/
theorem writeCmd_of_error {v : Word} {e : DecodeError} (h : decode v = .error e) (s : State) :
    writeCmd v s = .next (s.setCmd v).illegalCommand := by
  rw [writeCmd, h]

/-- A write to `CMD` always completes, with the word in `CMD` and the host's side as it was. -/
theorem writeCmd_next (v : Word) (s : State) :
    ∃ t, writeCmd v s = .next t ∧ t.cmd = v ∧ t.pending = s.pending ∧ t.responses = s.responses := by
  cases hd : decode v with
  | ok i =>
    obtain ⟨t, ht⟩ := exec_next i (s.setCmd v)
    exact ⟨t, (writeCmd_of_decode hd s).trans ht, exec_frame ht⟩
  | error e => exact ⟨_, writeCmd_of_error hd s, rfl, rfl, rfl⟩

/-- Settles O9: the write leaves the word in `CMD`, whether it decodes or not, and the read shows `CMD`. -/
theorem cmdReadsBackTheLastWordWritten : Obligations.CmdReadsBackTheLastWordWritten := by
  intro s v
  obtain ⟨t, ht, hcmd, -, hresponses⟩ := writeCmd_next v s
  refine ⟨_, _, perform_write ((memWrite_cmd v s).trans ht), perform_read _ _, ?_⟩
  have hread : portValue (t.respond .done) .cmd = v := hcmd
  rw [readResponse_portOffset, hread, State.respond_responses, State.respond_responses, hresponses, List.append_assoc]
  rfl

/-! ## Register pairs -/

/-- Two words side by side are the number `hi * 2^32 + lo` (R12). -/
theorem toNat_append_word (hi lo : Word) : (hi ++ lo).toNat = hi.toNat * 2 ^ 32 + lo.toNat := by
  rw [BitVec.toNat_append, ← Nat.shiftLeft_add_eq_or_of_lt lo.isLt, Nat.shiftLeft_eq]

theorem State.toNat_time (s : State) : s.time.toNat = s.timeHi.toNat * 2 ^ 32 + s.timeLo.toNat :=
  toNat_append_word ..

theorem State.toNat_ctr (s : State) : s.ctr.toNat = s.ctrHi.toNat * 2 ^ 32 + s.ctrLo.toNat :=
  toNat_append_word ..

/-- Settles O12: the two writes touch different registers. -/
theorem timeHalvesInEitherOrder : Obligations.TimeHalvesInEitherOrder := by
  intro s lo hi
  exact ⟨_, _, _, perform_write_operand .timeLo lo s, perform_write_operand .timeHi hi _,
    perform_write_operand .timeHi hi s, perform_write_operand .timeLo lo _, State.toNat_time _⟩

/-! ## Steps -/

/-- A step with an event pending performs that event. -/
theorem step_of_pending {s : State} {e : HostEvent} {rest : List HostEvent} (h : s.pending = e :: rest) :
    step s = perform e (s.withPending rest) := by
  rw [step, nextStep, h]

/-- Settles O13: the access reaches `CMD`, and the write of a word that decodes is the execution of its command. -/
theorem stepRunsTheDecodedCommand : Obligations.StepRunsTheDecodedCommand := by
  intro s w i rest hpending hdecode
  obtain ⟨t, ht⟩ := exec_next i ((s.withPending rest).setCmd w)
  have hwrite : memWrite (Loc.portOffset .cmd) w (s.withPending rest) = .next t := by
    rw [memWrite_cmd, writeCmd_of_decode hdecode, ht]
  exact ⟨t, ht, (step_of_pending hpending).trans (perform_write hwrite)⟩

theorem State.contents_reset (l : Loc) : State.reset.contents l = 0 := by
  cases l with
  | operand r => cases r <;> rfl
  | result r => cases r <;> rfl
  | _ => rfl

/-- Settles O17: the step performs the reset, and every location of the reset state is zero. -/
theorem resetZeroesEveryLocation : Obligations.ResetZeroesEveryLocation := by
  intro s rest hpending
  refine ⟨_, step_of_pending hpending, fun l => ?_, rfl⟩
  rw [State.contents_resetBlock, State.contents_reset]

end Sys2Proof.Machine
end

