-- ==== Sys2Proof/Proofs/CommandReads.lean ====
section
/-! What a command computes is a function of the locations it reads (spec/10_state.md R41, spec/30_encoding.md R95): two
states that agree on them have the same inputs, and the results of each command are built from its inputs alone. -/

namespace Sys2Proof.Machine

/-- `s` and `s'` agree on the locations that `i` reads in `s`. -/
abbrev AgreeOnReads (i : Instr) (s s' : State) : Prop :=
  ∀ l, commandReads s i l = true → s.contents l = s'.contents l

/-! ## The same inputs -/

/-- Cells with the same zero-extended contents hold the same bytes. -/
theorem Memory.bytes_eq_of_contents {m m' : Memory} {n size : Nat} (hn : n ≤ size)
    (h : ∀ k : Fin size, k.val < n → (m.read k).setWidth 32 = (m'.read k).setWidth 32) : m.bytes n = m'.bytes n := by
  refine Memory.bytes_congr fun k hk => ?_
  have hcell := congrArg (BitVec.setWidth 8) (h ⟨k, by omega⟩ hk)
  rwa [BitVec.setWidth_setWidth_of_le _ (by decide), BitVec.setWidth_setWidth_of_le _ (by decide),
    BitVec.setWidth_eq, BitVec.setWidth_eq] at hcell

theorem codecInput_congr {s s' : State} (hlen : s.ilen = s'.ilen) (hle : s.ilen.toNat ≤ 256)
    (h : ∀ k, k.val < s.ilen.toNat → s.contents (.ibuf k) = s'.contents (.ibuf k)) : s.codecInput = s'.codecInput := by
  rw [State.codecInput, State.codecInput, ← hlen]
  exact Memory.bytes_eq_of_contents hle h

theorem secret_congr {s s' : State} (hlen : s.keylen = s'.keylen) (hle : s.keylen.toNat ≤ 256)
    (h : ∀ k, k.val < s.keylen.toNat → s.contents (.key k) = s'.contents (.key k)) : s.secret = s'.secret := by
  rw [State.secret, State.secret, ← hlen]
  exact Memory.bytes_eq_of_contents hle h

theorem hash_unique {v v' : Word} {a a' : HashAlg} (hv : v = v') (h : HashAlg.ofReg? v = some a)
    (h' : HashAlg.ofReg? v' = some a') : a = a' := by
  subst hv
  exact Option.some.inj (h.symm.trans h')

/-- A command checks only registers that it reads. -/
theorem AgreeOnReads.argMask_eq {i : Instr} {s s' : State} (h : AgreeOnReads i s s') :
    argMask (commandNeeds i) s = argMask (commandNeeds i) s' := by
  cases i with
  | b32enc | b32dec =>
    have hilen : s.ilen = s'.ilen := h (.operand .ilen) rfl
    simp [argMask, commandNeeds, hilen]
  | tstep =>
    have hperiod : s.period = s'.period := h (.operand .period) rfl
    simp [argMask, commandNeeds, hperiod]
  | hmac =>
    have halg : s.alg = s'.alg := h (.operand .alg) rfl
    have hkeylen : s.keylen = s'.keylen := h (.operand .keylen) rfl
    simp [argMask, commandNeeds, halg, hkeylen]
  | dtrunc =>
    have halg : s.alg = s'.alg := h (.operand .alg) rfl
    have hdigits : s.digits = s'.digits := h (.operand .digits) rfl
    simp [argMask, commandNeeds, halg, hdigits]
  | totp =>
    have hperiod : s.period = s'.period := h (.operand .period) rfl
    have halg : s.alg = s'.alg := h (.operand .alg) rfl
    have hdigits : s.digits = s'.digits := h (.operand .digits) rfl
    have hkeylen : s.keylen = s'.keylen := h (.operand .keylen) rfl
    simp [argMask, commandNeeds, hperiod, halg, hdigits, hkeylen]
  | clear => rfl

theorem AgreeOnReads.inContract_iff {i : Instr} {s s' : State} (h : AgreeOnReads i s s') :
    InContract i s ↔ InContract i s' := by
  rw [← argMask_eq_zero_iff, ← argMask_eq_zero_iff, h.argMask_eq]

/-! ## The same results -/

/-- The locations of a command's row hold nothing but what the command stored there. -/
theorem contents_storeOutput {l : Loc} (h : commandWrites .b32enc l = true) (s s' : State) (out : List Byte) :
    (s.storeOutput out).complete.contents l = (s'.storeOutput out).complete.contents l := by
  simp only [commandWrites] at h
  split at h
  · rfl
  · rfl
  · cases h

theorem contents_storeStep {l : Loc} (h : commandWrites .tstep l = true) (s s' : State) (c r : Nat) :
    (s.storeStep c r).complete.contents l = (s'.storeStep c r).complete.contents l := by
  simp only [commandWrites] at h
  split at h
  · rfl
  · rfl
  · rfl
  · cases h

theorem contents_storeDigest {l : Loc} (h : commandWrites .hmac l = true) (s s' : State) (d : List Byte) :
    (s.storeDigest d).complete.contents l = (s'.storeDigest d).complete.contents l := by
  simp only [commandWrites] at h
  split at h
  · rfl
  · cases h

theorem contents_storeCode {l : Loc} (h : commandWrites .dtrunc l = true) (s s' : State) (off bin v : Nat)
    (text : List Byte) :
    (s.storeCode off bin v text).complete.contents l = (s'.storeCode off bin v text).complete.contents l := by
  simp only [commandWrites] at h
  split at h
  · rfl
  · rfl
  · rfl
  · rfl
  · cases h

/-- What `TOTP` stores is what `TSTEP`, `HMAC` and `DTRUNC` store. -/
theorem contents_storeAll {l : Loc} (h : commandWrites .totp l = true) (s s' : State) (c r : Nat) (d : List Byte)
    (off bin v : Nat) (text : List Byte) :
    (((s.storeStep c r).storeDigest d).storeCode off bin v text).complete.contents l =
      (((s'.storeStep c r).storeDigest d).storeCode off bin v text).complete.contents l := by
  simp only [commandWrites] at h
  split at h
  any_goals rfl
  cases h

theorem contents_zeroise {l : Loc} (h : commandWrites .clear l = true) (s s' : State) :
    s.zeroise.complete.contents l = s'.zeroise.complete.contents l := by
  cases l with
  | cmd | status => cases h
  | operand r => cases r <;> rfl
  | result r => cases r <;> rfl
  | code i | digest i | key i | ibuf i | obuf i => rfl

/-- In contract, two states that agree on what a command reads get the same results. -/
theorem CommandEffect.contents_eq {i : Instr} {s s' t t' : State} (hc : InContract i s) (hagree : AgreeOnReads i s s')
    (h : CommandEffect i s t) (h' : CommandEffect i s' t') {l : Loc} (hl : commandWrites i l = true) :
    t.contents l = t'.contents l := by
  cases i with
  | b32enc | b32dec =>
    obtain rfl := h
    obtain rfl := h'
    have hinput : s.codecInput = s'.codecInput :=
      codecInput_congr (hagree (.operand .ilen) rfl) hc fun k hk => hagree (.ibuf k) (decide_eq_true hk)
    rw [hinput]
    exact contents_storeOutput hl s s' _
  | tstep =>
    obtain rfl := h
    obtain rfl := h'
    have hperiod : s.period = s'.period := hagree (.operand .period) rfl
    have htimeHi : s.timeHi = s'.timeHi := hagree (.operand .timeHi) rfl
    have htimeLo : s.timeLo = s'.timeLo := hagree (.operand .timeLo) rfl
    simp only [State.timeStep, State.time, hperiod, htimeHi, htimeLo]
    exact contents_storeStep hl s s' _ _
  | hmac =>
    obtain ⟨a, ha, rfl⟩ := h
    obtain ⟨a', ha', rfl⟩ := h'
    obtain rfl : a = a' := hash_unique (hagree (.operand .alg) rfl) ha ha'
    have hctrHi : s.ctrHi = s'.ctrHi := hagree (.operand .ctrHi) rfl
    have hctrLo : s.ctrLo = s'.ctrLo := hagree (.operand .ctrLo) rfl
    obtain ⟨-, -, hkeylen⟩ := hc
    have hsecret : s.secret = s'.secret :=
      secret_congr (hagree (.operand .keylen) rfl) hkeylen fun k hk => hagree (.key k) (decide_eq_true hk)
    simp only [State.ctr, hctrHi, hctrLo, hsecret]
    exact contents_storeDigest hl s s' _
  | dtrunc =>
    obtain ⟨a, ha, rfl⟩ := h
    obtain ⟨a', ha', rfl⟩ := h'
    obtain rfl : a = a' := hash_unique (hagree (.operand .alg) rfl) ha ha'
    have hdigits : s.digits = s'.digits := hagree (.operand .digits) rfl
    have hread : digestCellsRead s.alg = a.digestLen := by rw [digestCellsRead, ha]
    have hdigest : s.digest.bytes a.digestLen = s'.digest.bytes a.digestLen :=
      Memory.bytes_eq_of_contents a.digestLen_le fun k hk => hagree (.digest k) (decide_eq_true (hread ▸ hk))
    simp only [State.truncate, hdigits, hdigest]
    exact contents_storeCode hl s s' _ _ _ _
  | totp =>
    obtain ⟨a, ha, rfl⟩ := h
    obtain ⟨a', ha', rfl⟩ := h'
    obtain rfl : a = a' := hash_unique (hagree (.operand .alg) rfl) ha ha'
    have hperiod : s.period = s'.period := hagree (.operand .period) rfl
    have htimeHi : s.timeHi = s'.timeHi := hagree (.operand .timeHi) rfl
    have htimeLo : s.timeLo = s'.timeLo := hagree (.operand .timeLo) rfl
    have hdigits : s.digits = s'.digits := hagree (.operand .digits) rfl
    obtain ⟨-, -, -, -, hkeylen⟩ := hc
    have hsecret : s.secret = s'.secret :=
      secret_congr (hagree (.operand .keylen) rfl) hkeylen fun k hk => hagree (.key k) (decide_eq_true hk)
    simp only [State.truncate, State.timeStep, State.time, State.storeDigest_digits, State.storeStep_digits, hperiod,
      htimeHi, htimeLo, hdigits, hsecret]
    exact contents_storeAll hl s s' _ _ _ _ _ _ _
  | clear =>
    obtain rfl := h
    obtain rfl := h'
    exact contents_zeroise hl s s'

/-- Settles O52: both states are in contract or neither is; in contract the results are the same, out of contract both
commands are rejected with the same mask. -/
theorem resultsDependOnlyOnTheOperands : Obligations.ResultsDependOnlyOnTheOperands := by
  intro i s s' t t' hagree h h'
  have hiff := AgreeOnReads.inContract_iff hagree
  obtain ⟨hc, rfl⟩ | ⟨hc, heffect⟩ := exec_cases h
  · obtain ⟨-, rfl⟩ | ⟨hc', -⟩ := exec_cases h'
    · refine ⟨by simp [AgreeOnReads.argMask_eq hagree], fun hdone => ?_⟩
      rw [State.reject_eq, State.setStatus_status, statusDone_rejected] at hdone
      cases hdone
    · exact absurd (hiff.mpr hc') hc
  · obtain ⟨hc', -⟩ | ⟨-, heffect'⟩ := exec_cases h'
    · exact absurd (hiff.mp hc) hc'
    · exact ⟨heffect.status.trans heffect'.status.symm, fun _ _ hl => heffect.contents_eq hc hagree heffect' hl⟩

end Sys2Proof.Machine
end

