-- ==== Sys2Proof/Proofs/Invariant.lean ====
section
/-! The invariant (spec/10_state.md R44): the reset state meets it, each named update of the state keeps it, and so does
every command, every access and every step. -/

namespace Sys2Proof.Machine

/-! ## Each update keeps the invariant -/

namespace State.Inv

variable {s : State}

theorem withPending (h : s.Inv) (es : List HostEvent) : (s.withPending es).Inv := { h with }

theorem respond (h : s.Inv) (r : Response) : (s.respond r).Inv := { h with }

theorem setCmd (h : s.Inv) (v : Word) : (s.setCmd v).Inv := { h with }

theorem setStatus (h : s.Inv) {v : Word} (hv : StatusLegal v) : (s.setStatus v).Inv := { h with statusLegal := hv }

theorem complete (h : s.Inv) : s.complete.Inv := h.setStatus (.inr (.inl rfl))

/-- The invariant says nothing about operand registers: they hold whatever the host wrote (R67). -/
theorem setOperand (h : s.Inv) (r : OperandReg) (v : Word) : (s.setOperand r v).Inv := by
  cases r <;> exact { h with }

theorem writeDigest (h : s.Inv) {i : Nat} (hi : i < Config.digestCells) (v : Word) : (s.writeDigest i v).Inv :=
  { h with digestWf := Memory.write_wf h.digestWf hi _ }

theorem writeKey (h : s.Inv) {i : Nat} (hi : i < Config.keyMax) (v : Word) : (s.writeKey i v).Inv :=
  { h with keyWf := Memory.write_wf h.keyWf hi _ }

theorem writeIbuf (h : s.Inv) {i : Nat} (hi : i < Config.ibufMax) (v : Word) : (s.writeIbuf i v).Inv :=
  { h with ibufWf := Memory.write_wf h.ibufWf hi _ }

theorem storeOutput (h : s.Inv) {out : List Byte} (hout : out.length ≤ 410) : (s.storeOutput out).Inv where
  __ := h
  olenBound := Nat.le_trans (toNat_ofNat_word_le _) hout
  obufTail i _ hi := by
    have hlen : (BitVec.ofNat 32 out.length).toNat = out.length := by rw [BitVec.toNat_ofNat]; omega
    rw [State.storeOutput_olen, hlen] at hi
    rw [State.storeOutput_obuf, Memory.read_ofBytes, List.getD_eq_default _ _ hi]
  obufWf := Memory.ofBytes_wf (Nat.le_trans hout (by decide))

theorem storeStep (h : s.Inv) {c r : Nat} (hr : r ≤ 120) : (s.storeStep c r).Inv :=
  { h with remainBound := Nat.le_trans (toNat_ofNat_word_le _) hr }

theorem storeDigest (h : s.Inv) {d : List Byte} (hd : d.length ≤ Config.digestCells) : (s.storeDigest d).Inv :=
  { h with digestWf := Memory.ofBytes_wf hd }

theorem timeStep (h : s.Inv) (hperiod : s.period.toNat ≤ 120) : s.timeStep.Inv :=
  h.storeStep (Nat.le_trans (remainingOf_le ..) hperiod)

theorem truncate (h : s.Inv) (hdigits : s.digits.toNat = 6 ∨ s.digits.toNat = 8) (d : List Byte) :
    (s.truncate d).Inv where
  __ := h
  offsetBound := Nat.le_trans (toNat_ofNat_word_le _) (truncOffset_le d)
  bincodeBound := Nat.lt_of_le_of_lt (toNat_ofNat_word_le _) (truncBincode_lt d)
  valueBound := by
    have hpow : 10 ^ s.digits.toNat ≤ 10 ^ 8 := Nat.pow_le_pow_right (by decide) (by omega)
    exact Nat.lt_of_le_of_lt (toNat_ofNat_word_le _) (Nat.lt_of_lt_of_le (codeValue_lt ..) hpow)
  codeShape := codeShape_codeText hdigits _
  codeWf := Memory.ofBytes_wf (by rw [length_codeText]; show _ ≤ 8; omega)

end State.Inv

/-! ## Reset, commands, accesses, steps -/

/-- Settles O19: every register is zero and every buffer empty. -/
theorem resetStateMeetsTheInvariant : Obligations.ResetStateMeetsTheInvariant where
  statusLegal := .inl rfl
  olenBound := by decide
  obufTail _ _ _ := rfl
  remainBound := by decide
  offsetBound := by decide
  bincodeBound := by decide
  valueBound := by decide
  codeShape := .inl fun _ _ => rfl
  codeWf := by decide
  digestWf := by decide
  keyWf := by decide
  ibufWf := by decide
  obufWf := by decide

theorem State.inv_resetBlock (s : State) : s.resetBlock.Inv := { resetStateMeetsTheInvariant with }

theorem State.Inv.zeroise {s : State} (h : s.Inv) : s.zeroise.Inv := by
  rw [State.zeroise_eq]
  exact { resetStateMeetsTheInvariant with statusLegal := h.statusLegal }

/-- A command in contract keeps the invariant: each value it stores is in its range. -/
theorem CommandEffect.inv {i : Instr} {s t : State} (h : s.Inv) (hc : InContract i s) (heffect : CommandEffect i s t) :
    t.Inv := by
  cases i with
  | b32enc =>
    obtain rfl := heffect
    exact (h.storeOutput (length_b32Enc_codecInput_le hc)).complete
  | b32dec =>
    obtain rfl := heffect
    exact (h.storeOutput (Nat.le_trans (length_b32Dec_codecInput_le hc) (by decide))).complete
  | tstep =>
    obtain rfl := heffect
    obtain ⟨-, hperiod⟩ := hc
    exact (h.timeStep hperiod).complete
  | hmac =>
    obtain ⟨a, -, rfl⟩ := heffect
    exact (h.storeDigest (length_hmac a _ _ ▸ a.digestLen_le)).complete
  | dtrunc =>
    obtain ⟨a, -, rfl⟩ := heffect
    obtain ⟨hdigits, -⟩ := hc
    exact (h.truncate hdigits _).complete
  | totp =>
    obtain ⟨a, -, rfl⟩ := heffect
    obtain ⟨⟨-, hperiod⟩, hdigits, -⟩ := hc
    exact (((h.timeStep hperiod).storeDigest (length_hmac a _ _ ▸ a.digestLen_le)).truncate hdigits _).complete
  | clear =>
    obtain rfl := heffect
    exact h.zeroise.complete

theorem exec_inv {i : Instr} {s t : State} (h : s.Inv) (hexec : exec i s = .next t) : t.Inv := by
  obtain ⟨hlegal, -⟩ := exec_commandStatus hexec
  obtain ⟨-, rfl⟩ | ⟨hc, heffect⟩ := exec_cases hexec
  · exact h.setStatus hlegal
  · exact heffect.inv h hc

theorem writeCmd_inv {v : Word} {s t : State} (h : s.Inv) (hwrite : writeCmd v s = .next t) : t.Inv := by
  cases hd : decode v with
  | ok i => exact exec_inv (h.setCmd v) (writeCmd_of_decode hd s ▸ hwrite)
  | error e =>
    rw [writeCmd_of_error hd] at hwrite
    exact Host.Outcome.next.inj hwrite ▸ (h.setCmd v).setStatus (.inr (.inr (.inl rfl)))

/-- A write that completes reached `CMD`, an operand register or a cell of `DIGEST`, `KEY` or `IBUF`. -/
theorem memWrite_inv {off : Offset} {v : Word} {s t : State} (h : s.Inv) (hwrite : memWrite off v s = .next t) :
    t.Inv := by
  unfold memWrite at hwrite
  split at hwrite
  · exact writeCmd_inv h hwrite
  · exact Host.Outcome.next.inj hwrite ▸ h.setOperand _ v
  · exact Host.Outcome.next.inj hwrite ▸ h.writeDigest (Fin.isLt _) v
  · exact Host.Outcome.next.inj hwrite ▸ h.writeKey (Fin.isLt _) v
  · exact Host.Outcome.next.inj hwrite ▸ h.writeIbuf (Fin.isLt _) v
  all_goals cases hwrite

theorem perform_inv {e : HostEvent} {s t : State} (h : s.Inv) (hperform : perform e s = .next t) : t.Inv := by
  cases e with
  | read off => exact Host.Outcome.next.inj hperform ▸ h.respond _
  | write off v =>
    rw [perform] at hperform
    split at hperform
    · exact Host.Outcome.next.inj hperform ▸ (memWrite_inv h ‹_›).respond .done
    · exact Host.Outcome.next.inj hperform ▸ h.respond .busError
    · cases hperform
  | reset => exact Host.Outcome.next.inj hperform ▸ s.inv_resetBlock

/-- Settles O20: with nothing pending the state stays, otherwise the step performs one event. -/
theorem everyStepKeepsTheInvariant : Obligations.EveryStepKeepsTheInvariant := by
  intro s t h hstep
  cases hpending : s.pending with
  | nil =>
    rw [step, nextStep, hpending] at hstep
    exact Host.Outcome.next.inj hstep ▸ h
  | cons e rest => exact perform_inv (h.withPending rest) (step_of_pending hpending ▸ hstep)

end Sys2Proof.Machine
end

