-- ==== Sys2Proof/Proofs/PortAccesses.lean ====
section
/-! When an access raises `BusError` (spec/20_memory.md R63 to R65, spec/60_exceptions.md R228), what a completed write
stores and leaves (R67, R68), what a read returns (R66, R69), and how a step answers the first access (R73, R74). -/

namespace Sys2Proof.Machine

/-! ## Which offsets lead to no location, and which to a read-only one -/

/-- An access reaches no location exactly when its offset is misaligned or reserved (R63, R64). -/
theorem accessed_eq_none_iff (off : Offset) :
    accessed off = none ↔ off.toNat % 4 ≠ 0 ∨ ReservedOffset off.toNat := by
  by_cases haligned : off.toNat % 4 = 0
  · rw [accessed, if_pos haligned, locate_eq_none_iff off.isLt haligned]
    simp [haligned]
  · simp [accessed, haligned]

theorem byteOffset_of_accessed {off : Offset} {l : Loc} (h : accessed off = some l) : l.byteOffset = off.toNat := by
  by_cases haligned : off.toNat % 4 = 0
  · rw [accessed, if_pos haligned] at h
    exact byteOffset_of_locate haligned h
  · rw [accessed, if_neg haligned] at h
    cases h

/-- The access column of R61 as ranges of offsets (R65). -/
theorem hostAccess_eq_readOnly_iff (l : Loc) : l.hostAccess = .readOnly ↔ ReadOnlyOffset l.byteOffset := by
  cases l with
  | cmd | status => decide
  | operand r => cases r <;> decide
  | result r => cases r <;> decide
  | code i | obuf i =>
    have hi := i.isLt
    refine iff_of_true rfl ?_
    simp only [ReadOnlyOffset, Loc.byteOffset, Config.codeCells, Config.obufMax] at hi ⊢
    omega
  | digest i | key i | ibuf i =>
    have hi := i.isLt
    refine iff_of_false nofun ?_
    simp only [ReadOnlyOffset, Loc.byteOffset, Config.digestCells, Config.keyMax, Config.ibufMax] at hi ⊢
    omega

/-- No write at `off` can complete: it reaches no location, or one that is read only. -/
def WriteRefused (off : Offset) : Prop := ∀ l, accessed off = some l → l.hostAccess = .readOnly

theorem writeRefused_iff (off : Offset) :
    WriteRefused off ↔ off.toNat % 4 ≠ 0 ∨ ReservedOffset off.toNat ∨ ReadOnlyOffset off.toNat := by
  rw [← or_assoc, ← accessed_eq_none_iff, WriteRefused]
  cases hl : accessed off with
  | none => simp
  | some l => simp [hostAccess_eq_readOnly_iff, byteOffset_of_accessed hl]

/-! ## Reads -/

/-- Settles O5: the read answers what the port shows of the location: 0 for a `KEY` cell, which is write only, and the
contents for every other location. -/
theorem readsReturnContentsAndChangeNothing : Obligations.ReadsReturnContentsAndChangeNothing := by
  intro s l
  rw [perform_read, readResponse_portOffset]
  cases l with
  | key => rfl
  | cmd | status | operand | result | code | digest | ibuf | obuf => rfl

theorem readResponse_eq_busError_iff (off : Offset) (s : State) :
    readResponse off s = .busError ↔ accessed off = none := by
  cases hl : accessed off with
  | none => simp [readResponse_of_not_accessed hl]
  | some l => simp [readResponse_of_accessed hl]

/-! ## Which writes complete -/

theorem memWrite_of_writeRefused {off : Offset} (h : WriteRefused off) (v : Word) (s : State) :
    memWrite off v s = .fault .busError := by
  cases hl : accessed off with
  | none => rw [memWrite, hl]
  | some l =>
    have hreadOnly := h l hl
    rw [memWrite, hl]
    cases l with
    | status | result | code | obuf => rfl
    | cmd | operand | digest | key | ibuf => cases hreadOnly

/-- A write that is not refused completes and leaves the host's side as it was. -/
theorem memWrite_of_not_writeRefused {off : Offset} (h : ¬ WriteRefused off) (v : Word) (s : State) :
    ∃ t, memWrite off v s = .next t ∧ t.pending = s.pending ∧ t.responses = s.responses := by
  simp only [WriteRefused, not_forall] at h
  obtain ⟨l, hl, hwritable⟩ := h
  rw [memWrite, hl]
  cases l with
  | cmd =>
    obtain ⟨t, ht, -, hhost⟩ := writeCmd_next v s
    exact ⟨t, ht, hhost⟩
  | operand r => exact ⟨_, rfl, s.setOperand_pending r v, s.setOperand_responses r v⟩
  | digest | key | ibuf => exact ⟨_, rfl, rfl, rfl⟩
  | status | result | code | obuf => exact absurd rfl hwritable

theorem perform_write_of_writeRefused {off : Offset} (h : WriteRefused off) (v : Word) (s : State) :
    perform (.write off v) s = .next (s.respond .busError) := by
  simp only [perform, memWrite_of_writeRefused h]

/-- A write that is not refused is answered `done`. -/
theorem perform_write_of_not_writeRefused {off : Offset} (h : ¬ WriteRefused off) (v : Word) (s : State) :
    ∃ t, perform (.write off v) s = .next t ∧ t.pending = s.pending ∧ t.responses = s.responses ++ [.done] := by
  obtain ⟨t, ht, hpending, hresponses⟩ := memWrite_of_not_writeRefused h v s
  exact ⟨_, perform_write ht, hpending, by rw [State.respond_responses, hresponses]⟩

theorem perform_write_eq_busError_iff (off : Offset) (v : Word) (s : State) :
    perform (.write off v) s = .next (s.respond .busError) ↔ WriteRefused off := by
  refine ⟨fun hbus => ?_, fun h => perform_write_of_writeRefused h v s⟩
  by_contra h
  obtain ⟨t, ht, -, hresponses⟩ := perform_write_of_not_writeRefused h v s
  obtain rfl := Host.Outcome.next.inj (ht.symm.trans hbus)
  simp at hresponses

/-- Settles O6: a read is refused when it reaches no location, a write also when it reaches one that is read only. -/
theorem busErrorInExactlyTheseCases : Obligations.BusErrorInExactlyTheseCases := by
  refine fun off v s => ⟨?_, (perform_write_eq_busError_iff off v s).trans (writeRefused_iff off)⟩
  rw [perform_read, ← accessed_eq_none_iff, ← readResponse_eq_busError_iff off s]
  refine ⟨fun h => ?_, fun h => by rw [h]⟩
  have hresponses := congrArg State.responses (Host.Outcome.next.inj h)
  simpa using hresponses

/-! ## What a completed write stores -/

/-- `t` is `s` with `w` at the location `l`: every other location and the host's side are the same. -/
abbrev StoredAt (l : Loc) (w : Word) (s t : State) : Prop := t.contents l = w ∧ SameExcept (· = l) s t

/-- The low byte of a word, as a cell that holds it reads. -/
abbrev lowByte (v : Word) : Word := (v.setWidth 8).setWidth 32

theorem toNat_lowByte (v : Word) : (lowByte v).toNat = v.toNat % 2 ^ 8 := by
  rw [BitVec.toNat_setWidth, BitVec.toNat_setWidth]
  omega

@[simp] theorem State.contents_respond (s : State) (r : Response) (l : Loc) :
    (s.respond r).contents l = s.contents l := by
  cases l with
  | operand q => cases q <;> rfl
  | result q => cases q <;> rfl
  | _ => rfl

theorem storedAt_setOperand (s : State) (r : OperandReg) (v : Word) :
    StoredAt (.operand r) v s (s.setOperand r v) := by
  refine ⟨?_, fun l hl => ?_, s.setOperand_pending r v, s.setOperand_responses r v⟩
  · simp [State.contents]
  · cases l with
    | operand q =>
      have hq : q ≠ r := fun h => hl (congrArg Loc.operand h)
      simp [State.contents, hq]
    | result q => cases q <;> simp [State.contents, State.result]
    | cmd | status | code | digest | key | ibuf | obuf => simp [State.contents]

/-- A cell written with the low byte of `v` reads as that byte. -/
theorem Memory.setWidth_read_write_same {n : Nat} {m : Memory} (h : Memory.Wf n m) (i : Nat) (v : Word) :
    ((m.write i (v.setWidth 8)).read i).setWidth 32 = lowByte v := by
  rw [Memory.read_write h.1, if_pos rfl]

/-- Every other cell reads as before. -/
theorem Memory.setWidth_read_write_of_ne {n : Nat} {m : Memory} (h : Memory.Wf n m) {i j : Fin n} (hj : j ≠ i)
    (v : Word) : ((m.write i (v.setWidth 8)).read j).setWidth 32 = (m.read j).setWidth 32 := by
  rw [Memory.read_write h.1, if_neg (Fin.val_ne_of_ne hj)]

theorem storedAt_writeDigest {s : State} (h : Memory.Wf Config.digestCells s.digest) (i : Fin Config.digestCells)
    (v : Word) : StoredAt (.digest i) (lowByte v) s (s.writeDigest i v) := by
  refine ⟨Memory.setWidth_read_write_same h i v, fun l hl => ?_, rfl, rfl⟩
  cases l with
  | digest j => exact Memory.setWidth_read_write_of_ne h (fun hj => hl (congrArg Loc.digest hj)) v
  | _ => rfl

theorem storedAt_writeKey {s : State} (h : Memory.Wf Config.keyMax s.key) (i : Fin Config.keyMax) (v : Word) :
    StoredAt (.key i) (lowByte v) s (s.writeKey i v) := by
  refine ⟨Memory.setWidth_read_write_same h i v, fun l hl => ?_, rfl, rfl⟩
  cases l with
  | key j => exact Memory.setWidth_read_write_of_ne h (fun hj => hl (congrArg Loc.key hj)) v
  | _ => rfl

theorem storedAt_writeIbuf {s : State} (h : Memory.Wf Config.ibufMax s.ibuf) (i : Fin Config.ibufMax) (v : Word) :
    StoredAt (.ibuf i) (lowByte v) s (s.writeIbuf i v) := by
  refine ⟨Memory.setWidth_read_write_same h i v, fun l hl => ?_, rfl, rfl⟩
  cases l with
  | ibuf j => exact Memory.setWidth_read_write_of_ne h (fun hj => hl (congrArg Loc.ibuf hj)) v
  | _ => rfl

/-- The port's answer to a write is all that a write adds to what it stores. -/
theorem perform_write_of_storedAt {l : Loc} {v w : Word} {s t : State} (hwrite : memWrite l.portOffset v s = .next t)
    (h : StoredAt l w s t) : ∃ u, perform (.write l.portOffset v) s = .next u ∧ u.contents l = w ∧
      (∀ l', l' ≠ l → u.contents l' = s.contents l') ∧ u.pending = s.pending ∧
      u.responses = s.responses ++ [.done] := by
  obtain ⟨hword, hframe, hpending, hresponses⟩ := h
  refine ⟨_, perform_write hwrite, ?_, fun l' hl => ?_, hpending, ?_⟩
  · rw [State.contents_respond, hword]
  · rw [State.contents_respond, hframe l' hl]
  · rw [State.respond_responses, hresponses]

theorem memWrite_operand (r : OperandReg) (v : Word) (s : State) :
    memWrite (Loc.operand r).portOffset v s = .next (s.setOperand r v) := by
  rw [memWrite, accessed_portOffset]

/-- A write to a cell the host may write stores the low byte there (R68). -/
theorem memWrite_cell {s : State} {l : Loc} (h : s.Inv)
    (hcell : (∃ i, l = .digest i) ∨ (∃ i, l = .key i) ∨ (∃ i, l = .ibuf i)) (v : Word) :
    ∃ t, memWrite l.portOffset v s = .next t ∧ StoredAt l (lowByte v) s t := by
  rw [memWrite, accessed_portOffset]
  obtain ⟨i, rfl⟩ | ⟨i, rfl⟩ | ⟨i, rfl⟩ := hcell
  · exact ⟨_, rfl, storedAt_writeDigest h.digestWf i v⟩
  · exact ⟨_, rfl, storedAt_writeKey h.keyWf i v⟩
  · exact ⟨_, rfl, storedAt_writeIbuf h.ibufWf i v⟩

/-- Settles O7: the write is the update of the one register. -/
theorem operandWriteStoresTheWholeWord : Obligations.OperandWriteStoresTheWholeWord :=
  fun s r v => perform_write_of_storedAt (memWrite_operand r v s) (storedAt_setOperand s r v)

/-- Settles O8: the write stores the low byte in the one cell. -/
theorem cellWriteStoresTheLowByte : Obligations.CellWriteStoresTheLowByte := by
  intro s l v h hcell
  obtain ⟨t, ht, hstored⟩ := memWrite_cell h hcell v
  obtain ⟨u, hu, hword, hrest⟩ := perform_write_of_storedAt ht hstored
  exact ⟨u, hu, by rw [hword, toNat_lowByte], hrest⟩

/-! ## A read right after a write -/

theorem portValue_of_ne_writeOnly {l : Loc} (h : l.hostAccess ≠ .writeOnly) (s : State) :
    portValue s l = s.contents l := by
  unfold portValue
  split
  · exact absurd ‹_› h
  all_goals rfl

/-- At a location the host may read, a read right after a write returns what the write stored. -/
theorem perform_read_after_write {l : Loc} {v w : Word} {s t : State} (hread : l.hostAccess ≠ .writeOnly)
    (hwrite : memWrite l.portOffset v s = .next t) (h : StoredAt l w s t) :
    ∃ t u, perform (.write l.portOffset v) s = .next t ∧ perform (.read l.portOffset) t = .next u ∧
      u.responses = s.responses ++ [.done, .data w] := by
  obtain ⟨u, hu, hword, -, -, hresponses⟩ := perform_write_of_storedAt hwrite h
  refine ⟨u, _, hu, perform_read _ _, ?_⟩
  rw [readResponse_portOffset, portValue_of_ne_writeOnly hread, hword, State.respond_responses, hresponses,
    List.append_assoc]
  rfl

theorem lowByte_eq_ofNat (v : Word) : lowByte v = BitVec.ofNat 32 (v.toNat % 2 ^ 8) := by
  rw [← toNat_lowByte, BitVec.ofNat_toNat, BitVec.setWidth_eq]

/-- Settles O10: the write stores the word, or its low byte, where the read finds it. -/
theorem readReturnsTheLastWrite : Obligations.ReadReturnsTheLastWrite := by
  rintro s l v h (⟨r, rfl⟩ | hcell)
  · exact perform_read_after_write nofun (memWrite_operand r v s) (storedAt_setOperand s r v)
  · obtain ⟨t, ht, hstored⟩ := memWrite_cell h (hcell.imp_right .inr) v
    rw [lowByte_eq_ofNat] at hstored
    obtain ⟨i, rfl⟩ | ⟨i, rfl⟩ := hcell
    · exact perform_read_after_write nofun ht hstored
    · exact perform_read_after_write nofun ht hstored

/-! ## Steps -/

theorem readResponse_ne_done (off : Offset) (s : State) : readResponse off s ≠ .done := by
  cases hl : accessed off with
  | none => rw [readResponse_of_not_accessed hl]; nofun
  | some l => rw [readResponse_of_accessed hl]; nofun

/-- Every write ends in a next state and is answered `done` or with the bus error. -/
theorem perform_write_answered (off : Offset) (v : Word) (s : State) :
    ∃ t, perform (.write off v) s = .next t ∧ t.pending = s.pending ∧
      ∃ r, t.responses = s.responses ++ [r] ∧ (r = .done ∨ r = .busError) := by
  by_cases h : WriteRefused off
  · exact ⟨_, perform_write_of_writeRefused h v s, rfl, _, rfl, .inr rfl⟩
  · obtain ⟨t, ht, hpending, hresponses⟩ := perform_write_of_not_writeRefused h v s
    exact ⟨t, ht, hpending, _, hresponses, .inl rfl⟩

theorem step_of_nothing_pending {s : State} (h : s.pending = []) : step s = .next s := by
  rw [step, nextStep, h]

/-- Settles O15: the step takes the first pending event off the list and performs it. -/
theorem accessesAreAnsweredInOrder : Obligations.AccessesAreAnsweredInOrder := by
  intro s
  cases hpending : s.pending with
  | nil => exact ⟨s, step_of_nothing_pending hpending, hpending, rfl⟩
  | cons e rest =>
    rw [step_of_pending hpending]
    cases e with
    | read off => exact ⟨_, perform_read off _, rfl, _, rfl, readResponse_ne_done off _⟩
    | write off v => exact perform_write_answered off v (s.withPending rest)
    | reset => exact ⟨_, rfl, rfl, rfl⟩

end Sys2Proof.Machine
end

