-- ==== Sys2Proof/Proofs/CommandTwice.lean ====
section
/-! A command run again in the state it leaves changes nothing (spec/20_memory.md R70): no command in contract writes
what it reads, and a rejected command is rejected again with the same mask. -/

namespace Sys2Proof.Machine

/-- In contract the meaning of a command is its execution. -/
theorem exec_of_commandEffect {i : Instr} {s t : State} (hc : InContract i s) (h : CommandEffect i s t) :
    exec i s = .next t := by
  cases i with
  | b32enc => obtain rfl := h; exact exec_b32enc hc
  | b32dec => obtain rfl := h; exact exec_b32dec hc
  | tstep => obtain rfl := h; exact exec_tstep hc
  | hmac => obtain ⟨a, ha, rfl⟩ := h; exact exec_hmac ha hc
  | dtrunc => obtain ⟨a, ha, rfl⟩ := h; exact exec_dtrunc ha hc
  | totp => obtain ⟨a, ha, rfl⟩ := h; exact exec_totp ha hc
  | clear => obtain rfl := h; exact exec_clear s

/-- The operands a command checks are none of its results, and `CLEAR` checks none. -/
theorem CommandEffect.inContract {i : Instr} {s t : State} (hc : InContract i s) (h : CommandEffect i s t) :
    InContract i t := by
  cases i with
  | b32enc | b32dec | tstep | clear => obtain rfl := h; exact hc
  | hmac | dtrunc | totp => obtain ⟨a, -, rfl⟩ := h; exact hc

/-- The inputs of a command are none of its results, so the state it leaves has the same results again. -/
theorem CommandEffect.again {i : Instr} {s t : State} (h : CommandEffect i s t) : CommandEffect i t t := by
  cases i with
  | b32enc | b32dec | tstep | clear => obtain rfl := h; rfl
  | hmac | dtrunc | totp => obtain ⟨a, ha, rfl⟩ := h; exact ⟨a, ha, rfl⟩

/-- Settles O16: in contract the command stores the same results again, out of contract it is rejected again. -/
theorem runningACommandTwiceIsRunningItOnce : Obligations.RunningACommandTwiceIsRunningItOnce := by
  intro i s t h
  obtain ⟨hc, rfl⟩ | ⟨hc, heffect⟩ := exec_cases h
  · have hc' : ¬ InContract i (s.reject (argMask (commandNeeds i) s)) := by
      rwa [← argMask_eq_zero_iff] at hc ⊢
    exact exec_of_not_inContract hc'
  · exact exec_of_commandEffect (heffect.inContract hc) heffect.again

end Sys2Proof.Machine
end

