-- ==== Sys2Proof/Proofs/CommandWords.lean ====
section
/-! The words of the commands (spec/30_encoding.md R90 to R94): which command a word decodes to, and which words decode
to none and why. -/

namespace Sys2Proof

/-! ## Decoding is the inverse of encoding -/

@[simp] theorem decode_encode (i : Instr) : decode (encode i) = .ok i := by
  cases i <;> rfl

/-- The opcode map and the encoder name the same word for each command, and every bit of it counts (R90, R91). -/
theorem opcodeTable_row : ∀ r ∈ opcodeTable, r.mask = 0xFFFFFFFF ∧ encode r.instr = r.word := by decide

theorem decode_eq_ok_iff {w : Word} {i : Instr} : decode w = .ok i ↔ encode i = w := by
  refine ⟨fun h => ?_, fun h => h ▸ decode_encode i⟩
  unfold decode at h
  split at h
  · next r hr =>
    obtain rfl := Except.ok.inj h
    obtain ⟨hmask, hword⟩ := opcodeTable_row r (List.mem_of_find?_eq_some hr)
    have hmatch := List.find?_some hr
    rw [OpcodeRow.matchesWord_iff hmask, beq_iff_eq] at hmatch
    rw [hword, hmatch]
  · cases h

/-- A command word is 32 bits long, so reading it with the table's bit numbers changes nothing (R94). -/
@[simp] theorem tableWord_toNat (w : Word) : tableWord 32 w.toNat = w := by
  rw [tableWord, Nat.mod_eq_of_lt w.isLt, BitVec.ofNat_toNat, BitVec.setWidth_eq]

/-- Settles O1: the encoder gives the word of the command's row, and a word that matches a row is that row's word. -/
theorem decodeAndEncodeAgree : Obligations.DecodeAndEncodeAgree := by
  refine ⟨fun i _ => decode_encode i, fun w i h => decode_eq_ok_iff.mp h, fun i _ => ?_⟩
  rw [decodeTableWord, tableWord_toNat, decode_encode]

/-- Settles O2: the seven words are those of the encoder, and the word 0 matches no row. -/
theorem opcodeMapWordsDecode : Obligations.OpcodeMapWordsDecode :=
  ⟨decode_encode .b32enc, decode_encode .b32dec, decode_encode .tstep, decode_encode .hmac, decode_encode .dtrunc,
    decode_encode .totp, decode_encode .clear, rfl⟩

/-! ## The words that are no command -/

/-- The numbers of the opcode map (R91). -/
abbrev OpcodeNumber (n : Nat) : Prop := n = 0x01 ∨ n = 0x02 ∨ (0x10 ≤ n ∧ n ≤ 0x13) ∨ n = 0x20

theorem exists_encode_eq_iff (w : Word) : (∃ i, encode i = w) ↔ OpcodeNumber w.toNat := by
  constructor
  · rintro ⟨i, rfl⟩
    cases i <;> decide
  · intro h
    obtain h | h | h | h | h | h | h : w.toNat = 0x01 ∨ w.toNat = 0x02 ∨ w.toNat = 0x10 ∨ w.toNat = 0x11 ∨
        w.toNat = 0x12 ∨ w.toNat = 0x13 ∨ w.toNat = 0x20 := by omega
    · exact ⟨.b32enc, BitVec.eq_of_toNat_eq h.symm⟩
    · exact ⟨.b32dec, BitVec.eq_of_toNat_eq h.symm⟩
    · exact ⟨.tstep, BitVec.eq_of_toNat_eq h.symm⟩
    · exact ⟨.hmac, BitVec.eq_of_toNat_eq h.symm⟩
    · exact ⟨.dtrunc, BitVec.eq_of_toNat_eq h.symm⟩
    · exact ⟨.totp, BitVec.eq_of_toNat_eq h.symm⟩
    · exact ⟨.clear, BitVec.eq_of_toNat_eq h.symm⟩

theorem exists_decode_eq_ok_iff (w : Word) : (∃ i, decode w = .ok i) ↔ OpcodeNumber w.toNat := by
  simp only [decode_eq_ok_iff, exists_encode_eq_iff]

theorem ushiftRight_eight_eq_zero_iff (w : Word) : w >>> 8 = 0 ↔ w.toNat / 2 ^ 8 = 0 := by
  rw [← BitVec.toNat_inj, BitVec.toNat_ushiftRight, Nat.shiftRight_eq_div_pow]
  rfl

/-- A word that is no command is rejected for its reserved bits where it has any, otherwise for its opcode (R92,
R93). -/
theorem decode_of_not_opcodeNumber {w : Word} (h : ¬ OpcodeNumber w.toNat) :
    decode w = .error (if w.toNat / 2 ^ 8 = 0 then .unassignedOpcode else .reservedBits) := by
  rw [← exists_decode_eq_ok_iff] at h
  simp only [← ushiftRight_eight_eq_zero_iff]
  unfold decode at h ⊢
  split
  · next hr => exact absurd ⟨_, by rw [hr]⟩ h
  · rfl

theorem rsvZero_iff (w : Word) : rsvZero w = true ↔ w.toNat / 2 ^ 8 = 0 := by
  have hw := w.isLt
  rw [rsvZero, beq_iff_eq, ← BitVec.toNat_inj, BitVec.extractLsb'_toNat, Nat.shiftRight_eq_div_pow,
    Nat.mod_eq_of_lt (by omega)]
  rfl

theorem opcodeAssigned_iff (w : Word) : opcodeAssigned w = true ↔ OpcodeNumber (w.toNat % 2 ^ 8) := by
  have hopcode : (wordOpcode w).toNat = w.toNat % 2 ^ 8 := BitVec.extractLsb'_toNat ..
  rw [opcodeAssigned, ← hopcode]
  generalize wordOpcode w = op
  revert op; decide

/-- The two checks on a word (R92, R93) pass together exactly for the seven command words. -/
theorem wordWellFormed_iff (w : Word) : wordWellFormed w = true ↔ OpcodeNumber w.toNat := by
  rw [wordWellFormed, Bool.and_eq_true, rsvZero_iff, opcodeAssigned_iff, OpcodeNumber, OpcodeNumber]
  omega

/-- Settles O3: a command word decodes; any other word is rejected by `decode_of_not_opcodeNumber`. -/
theorem illegalWordsAreRejectedByName : Obligations.IllegalWordsAreRejectedByName := by
  intro w
  rw [exists_decode_eq_ok_iff, wordWellFormed_iff]
  by_cases h : OpcodeNumber w.toNat
  · obtain ⟨i, hi⟩ := (exists_decode_eq_ok_iff w).mpr h
    have hrsv : w.toNat / 2 ^ 8 = 0 := by omega
    rw [hi]
    exact ⟨Iff.rfl, iff_of_false nofun (not_not.mpr hrsv), iff_of_false nofun fun ⟨_, hnot⟩ => hnot h⟩
  · rw [decode_of_not_opcodeNumber h]
    by_cases hrsv : w.toNat / 2 ^ 8 = 0
    · rw [if_pos hrsv]
      exact ⟨Iff.rfl, iff_of_false nofun (not_not.mpr hrsv), iff_of_true rfl ⟨hrsv, h⟩⟩
    · rw [if_neg hrsv]
      exact ⟨Iff.rfl, iff_of_true rfl hrsv, iff_of_false nofun fun ⟨hzero, _⟩ => hrsv hzero⟩

end Sys2Proof
end

