-- ==== Sys2Proof/Proofs/CommandWrites.lean ====
section
/-! The frame of every command (spec/30_encoding.md R95, spec/20_memory.md R77, spec/60_exceptions.md R231): each store
of a command leaves every location outside the command's row as it was. -/

namespace Sys2Proof.Machine

/-! ## What each store leaves -/

theorem contents_setStatus_of_ne {l : Loc} (h : l ≠ .status) (s : State) (v : Word) :
    (s.setStatus v).contents l = s.contents l := by
  cases l with
  | status => exact absurd rfl h
  | operand r => cases r <;> rfl
  | result r => cases r <;> rfl
  | _ => rfl

theorem contents_storeOutput_of_not_written {l : Loc} (h : commandWrites .b32enc l = false) (s : State)
    (out : List Byte) : (s.storeOutput out).contents l = s.contents l := by
  cases l with
  | obuf i => cases h
  | operand r => cases r <;> rfl
  | result r =>
    cases r with
    | olen => cases h
    | _ => rfl
  | _ => rfl

theorem contents_storeStep_of_not_written {l : Loc} (h : commandWrites .tstep l = false) (s : State) (c r : Nat) :
    (s.storeStep c r).contents l = s.contents l := by
  cases l with
  | operand r =>
    cases r with
    | ctrLo | ctrHi => cases h
    | _ => rfl
  | result r =>
    cases r with
    | remain => cases h
    | _ => rfl
  | _ => rfl

theorem contents_storeDigest_of_not_written {l : Loc} (h : commandWrites .hmac l = false) (s : State)
    (d : List Byte) : (s.storeDigest d).contents l = s.contents l := by
  cases l with
  | digest i => cases h
  | operand r => cases r <;> rfl
  | result r => cases r <;> rfl
  | _ => rfl

theorem contents_storeCode_of_not_written {l : Loc} (h : commandWrites .dtrunc l = false) (s : State)
    (off bin v : Nat) (text : List Byte) : (s.storeCode off bin v text).contents l = s.contents l := by
  cases l with
  | code i => cases h
  | operand r => cases r <;> rfl
  | result r =>
    cases r with
    | offset | bincode | value => cases h
    | _ => rfl
  | _ => rfl

theorem contents_zeroise_of_not_written {l : Loc} (h : commandWrites .clear l = false) (s : State) :
    s.zeroise.contents l = s.contents l := by
  cases l with
  | cmd | status => rfl
  | _ => cases h

/-! ## The commands -/

/-- The row of `TOTP` is the rows of its three stages together (R95). -/
theorem commandWrites_totp (l : Loc) : commandWrites .totp l =
    (commandWrites .tstep l || commandWrites .hmac l || commandWrites .dtrunc l) := by
  cases l with
  | operand r => cases r <;> rfl
  | result r => cases r <;> rfl
  | _ => rfl

/-- In contract a command leaves every location but `STATUS` and those of its row. -/
theorem CommandEffect.contents_of_not_written {i : Instr} {s t : State} (h : CommandEffect i s t) {l : Loc}
    (hstatus : l ≠ .status) (hl : commandWrites i l = false) : t.contents l = s.contents l := by
  cases i with
  | b32enc | b32dec =>
    obtain rfl := h
    exact (contents_setStatus_of_ne hstatus _ _).trans (contents_storeOutput_of_not_written hl s _)
  | tstep =>
    obtain rfl := h
    exact (contents_setStatus_of_ne hstatus _ _).trans (contents_storeStep_of_not_written hl s _ _)
  | hmac =>
    obtain ⟨a, -, rfl⟩ := h
    exact (contents_setStatus_of_ne hstatus _ _).trans (contents_storeDigest_of_not_written hl s _)
  | dtrunc =>
    obtain ⟨a, -, rfl⟩ := h
    exact (contents_setStatus_of_ne hstatus _ _).trans (contents_storeCode_of_not_written hl s _ _ _ _)
  | totp =>
    obtain ⟨a, -, rfl⟩ := h
    rw [commandWrites_totp, Bool.or_eq_false_iff, Bool.or_eq_false_iff] at hl
    obtain ⟨⟨hstep, hdigest⟩, hcode⟩ := hl
    rw [State.complete_eq, contents_setStatus_of_ne hstatus, State.truncate,
      contents_storeCode_of_not_written hcode, contents_storeDigest_of_not_written hdigest, State.timeStep,
      contents_storeStep_of_not_written hstep]
  | clear =>
    obtain rfl := h
    exact (contents_setStatus_of_ne hstatus _ _).trans (contents_zeroise_of_not_written hl s)

theorem SameExcept.mono {may may' : Loc → Prop} {s t : State} (hmay : ∀ l, may l → may' l)
    (h : SameExcept may s t) : SameExcept may' s t := by
  obtain ⟨hcontents, hhost⟩ := h
  exact ⟨fun l hl => hcontents l fun hl' => hl (hmay l hl'), hhost⟩

/-- A rejected command changes only `STATUS` (R222). -/
theorem sameExcept_reject (s : State) (m : ArgBits) : SameExcept (· = .status) s (s.reject m) :=
  ⟨fun _ hl => contents_setStatus_of_ne hl s _, rfl, rfl⟩

/-- Settles O51: a rejected command changes only `STATUS`; a command in contract leaves what is outside its row, and it
succeeds. -/
theorem commandsWriteOnlyTheirResults : Obligations.CommandsWriteOnlyTheirResults := by
  intro i s t h
  obtain ⟨-, rfl⟩ | ⟨-, heffect⟩ := exec_cases h
  · have honly := sameExcept_reject s (argMask (commandNeeds i) s)
    exact ⟨SameExcept.mono (fun _ hstatus => .inl hstatus) honly, fun _ => honly⟩
  · obtain ⟨-, hhost⟩ := heffect.frame
    refine ⟨⟨fun l hl => ?_, hhost⟩, fun hdone => ?_⟩
    · obtain ⟨hstatus, hwrites⟩ := not_or.mp hl
      exact heffect.contents_of_not_written hstatus (Bool.not_eq_true _ ▸ hwrites)
    · rw [heffect.status] at hdone
      cases hdone

end Sys2Proof.Machine
end

