-- ==== Sys2Proof/Proofs/HostLines.lean ====
section
/-! The encoding of a line of a host program (spec/30_encoding.md R100, R102): hexadecimal digits are read back, and
with them the whole line. -/

namespace Sys2Proof.Machine

/-! ## Hexadecimal numbers -/

theorem hexValue_hexDigit : ∀ d < 16, hexValue (hexDigit d) = some d := by decide

@[simp] theorem length_hexText (k v : Nat) : (hexText k v).length = k := by simp [hexText]

/-- The digit of the highest place, then the text of the places below it. -/
theorem hexText_succ (k v : Nat) : hexText (k + 1) v = hexDigit (v / 16 ^ k % 16) :: hexText k v := by
  have hplace (i : Nat) : k - 1 - i = k - (i + 1) := by omega
  simp [hexText, List.range_succ_eq_map, Function.comp_def, hplace]

/-- Reading `k` digits of `v` shifts what stood before them by `k` places and adds the lowest `k` places of `v`. -/
theorem parseHex_hexText (acc k v : Nat) : parseHex acc (hexText k v) = some (acc * 16 ^ k + v % 16 ^ k) := by
  induction k generalizing acc with
  | zero => simp [hexText, parseHex, Nat.mod_one]
  | succ k ih =>
    rw [hexText_succ, parseHex, hexValue_hexDigit _ (Nat.mod_lt _ (by decide))]
    dsimp only
    rw [ih, Nat.mod_pow_succ]
    congr 1
    ring

theorem parseHex_zero_hexText {k v : Nat} (h : v < 16 ^ k) : parseHex 0 (hexText k v) = some v := by
  rw [parseHex_hexText, Nat.mod_eq_of_lt h, Nat.zero_mul, Nat.zero_add]

/-! ## Lines -/

theorem offset_lt_window (off : Offset) : off.toNat < Config.windowBytes := off.isLt

theorem parseHex_offset (off : Offset) : parseHex 0 (hexText 4 off.toNat) = some off.toNat :=
  parseHex_zero_hexText (Nat.lt_trans off.isLt (by decide))

theorem parseHex_word (v : Word) : parseHex 0 (hexText 8 v.toNat) = some v.toNat := parseHex_zero_hexText v.isLt

theorem parseLine_encodeLine (line : HostLine) : parseLine (encodeLine line) = some line := by
  cases line with
  | wr off v =>
    have htake := List.take_left' (l₂ := ' ' :: hexText 8 v.toNat) (length_hexText 4 off.toNat)
    have hdrop := List.drop_left' (l₂ := ' ' :: hexText 8 v.toNat) (length_hexText 4 off.toNat)
    simp only [encodeLine, parseLine, htake, hdrop, parseHex_offset, parseHex_word]
    rw [if_pos ⟨offset_lt_window off, length_hexText ..⟩, BitVec.ofNat_toNat, BitVec.ofNat_toNat, BitVec.setWidth_eq,
      BitVec.setWidth_eq]
  | rd off =>
    simp only [encodeLine, parseLine, parseHex_offset]
    rw [if_pos ⟨offset_lt_window off, length_hexText ..⟩, BitVec.ofNat_toNat, BitVec.setWidth_eq]

/-- Settles O53: the digits of a line are read back, and the two examples of R102 are computed. -/
theorem hostLineEncodingIsReadBack : Obligations.HostLineEncodingIsReadBack :=
  ⟨parseLine_encodeLine, by decide, by decide⟩

end Sys2Proof.Machine
end

