-- ==== Sys2Proof/Proofs/HostPrograms.lean ====
section
/-! Running a host program (spec/30_encoding.md R102): a line is one event at its own offset wherever the block lies,
and no event depends on what else is pending, so the runner is the machine. -/

namespace Sys2Proof.Machine

/-! ## A line is an event, whatever `BASE` is -/

@[simp] theorem blockOffset?_base_add (base : Nat) (off : Offset) :
    blockOffset? base (base + off.toNat) = some off := by
  have hwindow : off.toNat < Config.windowBytes := off.isLt
  rw [blockOffset?, if_pos ⟨Nat.le_add_right .., by omega⟩, Nat.add_sub_cancel_left, BitVec.ofNat_toNat,
    BitVec.setWidth_eq]

theorem runLine_eq_perform (base : Nat) (line : HostLine) (s : State) : runLine base line s = perform line.event s := by
  cases line with
  | wr off v => simp only [runLine, blockOffset?_base_add, HostLine.event]
  | rd off => simp only [runLine, blockOffset?_base_add, HostLine.event]

/-- A line always ends in a next state and leaves the list of pending events alone. -/
theorem perform_line_next (line : HostLine) (s : State) :
    ∃ t, perform line.event s = .next t ∧ t.pending = s.pending := by
  cases line with
  | wr off v =>
    obtain ⟨t, ht, hpending, -⟩ := perform_write_answered off v s
    exact ⟨t, ht, hpending⟩
  | rd off => exact ⟨_, perform_read off s, rfl⟩

/-! ## The runner, line by line -/

theorem runProgram_cons {base : Nat} {line : HostLine} {s t : State} (h : perform line.event s = .next t)
    (rest : List HostLine) : runProgram base (line :: rest) s = runProgram base rest t := by
  rw [runProgram, runLine_eq_perform, h]

theorem runProgram_wr {base : Nat} {off : Offset} {v : Word} {s t : State} (h : perform (.write off v) s = .next t)
    (rest : List HostLine) : runProgram base (.wr off v :: rest) s = runProgram base rest t :=
  runProgram_cons (line := .wr off v) h rest

theorem runProgram_append {base : Nat} {prog : List HostLine} {s t : State} (h : runProgram base prog s = .next t)
    (rest : List HostLine) : runProgram base (prog ++ rest) s = runProgram base rest t := by
  induction prog generalizing s with
  | nil => rw [← Host.Outcome.next.inj h]; rfl
  | cons line prog ih =>
    obtain ⟨u, hu, -⟩ := perform_line_next line s
    rw [runProgram_cons hu] at h
    rw [List.cons_append, runProgram_cons hu, ih h]

/-! ## No access depends on what else is pending -/

section

variable {s t : State} (es : List HostEvent)

theorem zeroise_withPending (s : State) : (s.withPending es).zeroise = s.zeroise.withPending es := by
  rw [State.zeroise_eq, State.zeroise_eq]
  rfl

theorem CommandEffect.withPending {i : Instr} (h : CommandEffect i s t) :
    CommandEffect i (s.withPending es) (t.withPending es) := by
  cases i with
  | b32enc | b32dec | tstep => obtain rfl := h; rfl
  | hmac | dtrunc | totp => obtain ⟨a, ha, rfl⟩ := h; exact ⟨a, ha, rfl⟩
  | clear => obtain rfl := h; exact congrArg State.complete (zeroise_withPending es s).symm

/-- What is pending is no operand. -/
theorem inContract_withPending (i : Instr) (s : State) : InContract i (s.withPending es) ↔ InContract i s := by
  cases i <;> exact Iff.rfl

theorem exec_withPending {i : Instr} (h : exec i s = .next t) :
    exec i (s.withPending es) = .next (t.withPending es) := by
  obtain ⟨hc, rfl⟩ | ⟨hc, heffect⟩ := exec_cases h
  · exact exec_of_not_inContract fun hc' => hc ((inContract_withPending es i s).mp hc')
  · exact exec_of_commandEffect ((inContract_withPending es i s).mpr hc) (heffect.withPending es)

theorem writeCmd_withPending {v : Word} (h : writeCmd v s = .next t) :
    writeCmd v (s.withPending es) = .next (t.withPending es) := by
  cases hd : decode v with
  | ok i =>
    rw [writeCmd_of_decode hd] at h ⊢
    exact exec_withPending es h
  | error e =>
    rw [writeCmd_of_error hd] at h ⊢
    rw [← Host.Outcome.next.inj h]
    rfl

theorem setOperand_withPending (s : State) (r : OperandReg) (v : Word) :
    (s.withPending es).setOperand r v = (s.setOperand r v).withPending es := by
  cases r <;> rfl

theorem memWrite_withPending {off : Offset} {v : Word} (h : memWrite off v s = .next t) :
    memWrite off v (s.withPending es) = .next (t.withPending es) := by
  unfold memWrite at h ⊢
  split at h
  · exact writeCmd_withPending es h
  · rw [setOperand_withPending, Host.Outcome.next.inj h]
  · rw [← Host.Outcome.next.inj h]; rfl
  · rw [← Host.Outcome.next.inj h]; rfl
  · rw [← Host.Outcome.next.inj h]; rfl
  all_goals cases h

theorem readResponse_withPending (off : Offset) (s : State) :
    readResponse off (s.withPending es) = readResponse off s := by
  cases hl : accessed off with
  | none => rw [readResponse_of_not_accessed hl, readResponse_of_not_accessed hl]
  | some l =>
    rw [readResponse_of_accessed hl, readResponse_of_accessed hl]
    cases l with
    | operand r => cases r <;> rfl
    | result r => cases r <;> rfl
    | _ => rfl

theorem perform_line_withPending {line : HostLine} (h : perform line.event s = .next t) :
    perform line.event (s.withPending es) = .next (t.withPending es) := by
  cases line with
  | rd off =>
    rw [← Host.Outcome.next.inj h, HostLine.event, perform_read, readResponse_withPending]
    rfl
  | wr off v =>
    by_cases hrefused : WriteRefused off
    · rw [HostLine.event, perform_write_of_writeRefused hrefused] at h ⊢
      rw [← Host.Outcome.next.inj h]
      rfl
    · obtain ⟨u, hu, -⟩ := memWrite_of_not_writeRefused hrefused v s
      rw [HostLine.event, perform_write hu] at h
      rw [HostLine.event, perform_write (memWrite_withPending es hu), ← Host.Outcome.next.inj h]
      rfl

end

/-! ## The runner is the machine -/

theorem run_succ {M : Host.Core} {s t : M.State} (h : M.step s = .next t) (n : Nat) :
    M.run (n + 1) s = M.run n t := by
  rw [Host.Core.run, h]

theorem run_core_succ {s t : State} (h : step s = .next t) (n : Nat) :
    Host.Core.run core (n + 1) s = Host.Core.run core n t := by
  have hstep : core.step s = .next t := h
  exact run_succ hstep n

/-- Settles O54, by induction on the program: a step performs the first pending access as the runner does, with the rest
of the program still pending. -/
theorem runnerIsTheMachineForEveryBase : Obligations.RunnerIsTheMachineForEveryBase := by
  intro base prog
  induction prog with
  | nil =>
    intro s hpending
    cases s
    obtain rfl := hpending
    rfl
  | cons line rest ih =>
    intro s hpending
    obtain ⟨t, ht, htpending⟩ := perform_line_next line s
    have hstep : step (s.withPending ((line :: rest).map HostLine.event)) =
        .next (t.withPending (rest.map HostLine.event)) :=
      (step_of_pending rfl).trans (perform_line_withPending (s := s) _ ht)
    rw [runProgram_cons ht, ← ih t (htpending.trans hpending)]
    exact run_core_succ hstep _

end Sys2Proof.Machine
end

