-- ==== Sys2Proof/Proofs/PseudoInstructions.lean ====
section
/-! The pseudo-instructions (spec/30_encoding.md R101): what `WR64`, `LDKEY`, `LDIBUF` and `LDDIGEST` write and leave,
and what `RDBUF` reads. -/

namespace Sys2Proof.Machine

/-! ## WR64 -/

theorem toNat_halves (v : DWord) : (v.extractLsb' 32 32).toNat * 2 ^ 32 + (v.extractLsb' 0 32).toNat = v.toNat := by
  have hv := v.isLt
  simp only [BitVec.extractLsb'_toNat, Nat.shiftRight_eq_div_pow]
  omega

/-- Two writes to different operand registers leave both values there and nothing else changed. -/
theorem runProgram_two_operands {lo hi : OperandReg} (hne : lo ≠ hi) (base : Nat) (s : State) (a b : Word) :
    ∃ t, runProgram base [wrLoc (.operand lo) a, wrLoc (.operand hi) b] s = .next t ∧
      t.contents (.operand hi) = b ∧ t.contents (.operand lo) = a ∧
      ∀ l, l ≠ .operand lo → l ≠ .operand hi → t.contents l = s.contents l := by
  obtain ⟨u, hu, hlo, hframe, -⟩ := operandWriteStoresTheWholeWord s lo a
  obtain ⟨t, ht, hhi, hframe', -⟩ := operandWriteStoresTheWholeWord u hi b
  have hrun : runProgram base [wrLoc (.operand lo) a, wrLoc (.operand hi) b] s = .next t :=
    (runProgram_wr hu _).trans (runProgram_wr ht _)
  refine ⟨t, hrun, hhi, ?_, fun l hl hl' => (hframe' l hl').trans (hframe l hl)⟩
  rw [hframe' _ fun h => hne (Loc.operand.inj h), hlo]

/-- Settles O57: the two lines write the halves of the value to the two registers of the pair. -/
theorem writePairWritesTheValue : Obligations.WritePairWritesTheValue := by
  intro base s v
  constructor
  · obtain ⟨t, ht, hhi, hlo, hframe⟩ := runProgram_two_operands (lo := .timeLo) (hi := .timeHi) (by decide) base s
      (v.extractLsb' 0 32) (v.extractLsb' 32 32)
    exact ⟨t, ht, by rw [← toNat_halves v, ← hhi, ← hlo]; rfl, hframe⟩
  · obtain ⟨t, ht, hhi, hlo, hframe⟩ := runProgram_two_operands (lo := .ctrLo) (hi := .ctrHi) (by decide) base s
      (v.extractLsb' 0 32) (v.extractLsb' 32 32)
    exact ⟨t, ht, by rw [← toNat_halves v, ← hhi, ← hlo]; rfl, hframe⟩

/-! ## Buffers that the host may write -/

/-- `cell` names the `size` cells, from offset `first` on, of a buffer that the host may write and that the state holds
in `mem`. -/
structure HostBuffer {size : Nat} (first : Nat) (cell : Fin size → Loc) (mem : State → Memory) : Prop where
  offset : ∀ k, (cell k).byteOffset = first + 4 * k.val
  writable : ∀ k, (∃ i, cell k = .digest i) ∨ (∃ i, cell k = .key i) ∨ (∃ i, cell k = .ibuf i)
  contents : ∀ (s : State) (k : Fin size), s.contents (cell k) = ((mem s).read k).setWidth 32
  wf : ∀ s, s.Inv → Memory.Wf size (mem s)

theorem hostBuffer_digest : HostBuffer 0x100 .digest State.digest where
  offset _ := rfl
  writable i := .inl ⟨i, rfl⟩
  contents _ _ := rfl
  wf _ h := h.digestWf

theorem hostBuffer_key : HostBuffer 0x400 .key State.key where
  offset _ := rfl
  writable i := .inr (.inl ⟨i, rfl⟩)
  contents _ _ := rfl
  wf _ h := h.keyWf

theorem hostBuffer_ibuf : HostBuffer 0x800 .ibuf State.ibuf where
  offset _ := rfl
  writable i := .inr (.inr ⟨i, rfl⟩)
  contents _ _ := rfl
  wf _ h := h.ibufWf

/-- `t` is `s` after the bytes `bs` were written to the cells `i`, `i + 1`, …: every other location but those of
`except` is unchanged, and no access raised `BusError`. -/
structure CellsLoaded {size : Nat} (cell : Fin size → Loc) (i : Nat) (bs : List Byte) (except : List Loc)
    (s t : State) : Prop where
  inv : t.Inv
  loaded : ∀ k : Fin size, i ≤ k.val → k.val < i + bs.length → t.contents (cell k) = (bs.getD (k.val - i) 0).setWidth 32
  frame : ∀ l, l ∉ except → (∀ k : Fin size, i ≤ k.val → k.val < i + bs.length → l ≠ cell k) →
    t.contents l = s.contents l
  portErrorFree : PortErrorFree s → PortErrorFree t

section

variable {size first : Nat} {cell : Fin size → Loc} {mem : State → Memory}

theorem HostBuffer.cell_injective (hb : HostBuffer first cell mem) {j k : Fin size} (h : cell j = cell k) :
    j.val = k.val := by
  have hoffset := congrArg Loc.byteOffset h
  rw [hb.offset, hb.offset] at hoffset
  omega

theorem HostBuffer.cell_ne_operand (hb : HostBuffer first cell mem) (k : Fin size) (r : OperandReg) :
    cell k ≠ .operand r := by
  obtain ⟨i, hi⟩ | ⟨i, hi⟩ | ⟨i, hi⟩ := hb.writable k
  all_goals rw [hi]; nofun

theorem portErrorFree_of_done {s t : State} (hresponses : t.responses = s.responses ++ [.done]) (h : PortErrorFree s) :
    PortErrorFree t := by
  rw [PortErrorFree, hresponses]
  simpa using h

/-- A byte written to a cell is what the cell holds then (R68). -/
theorem HostBuffer.write_byte (hb : HostBuffer first cell mem) (k : Fin size) (b : Byte) {s : State} (hs : s.Inv) :
    ∃ t, perform (.write (BitVec.ofNat 13 (first + 4 * k.val)) (b.setWidth 32)) s = .next t ∧
      CellsLoaded cell k.val [b] [] s t := by
  obtain ⟨t, ht, hbyte, hframe, -, hresponses⟩ :=
    cellWriteStoresTheLowByte s (cell k) (b.setWidth 32) hs (hb.writable k)
  rw [Loc.portOffset, hb.offset] at ht
  refine ⟨t, ht, perform_inv hs ht, fun j hle hlt => ?_, fun l _ hl => ?_, portErrorFree_of_done hresponses⟩
  · obtain rfl : j = k := Fin.ext (by rw [List.length_singleton] at hlt; omega)
    rw [Nat.sub_self, List.getD_cons_zero]
    apply BitVec.eq_of_toNat_eq
    rw [hbyte, BitVec.toNat_setWidth_of_le (by decide), Nat.mod_eq_of_lt b.isLt]
  · exact hframe l (hl k (Nat.le_refl _) (by simp))

/-- Bytes written to a cell and then to the cells after it are the bytes written from that cell on. -/
theorem CellsLoaded.cons (hb : HostBuffer first cell mem) {i : Nat} {b : Byte} {bs : List Byte} {s u t : State}
    (h : CellsLoaded cell i [b] [] s u) (h' : CellsLoaded cell (i + 1) bs [] u t) :
    CellsLoaded cell i (b :: bs) [] s t where
  inv := h'.inv
  loaded k hle hlt := by
    rw [List.length_cons] at hlt
    by_cases hk : k.val = i
    · have hkeep : t.contents (cell k) = u.contents (cell k) :=
        h'.frame _ (by simp) fun j hj _ he => by have := hb.cell_injective he; omega
      rw [hkeep, h.loaded k hle (by rw [List.length_singleton]; omega), hk, Nat.sub_self]
      rfl
    · rw [h'.loaded k (by omega) (by omega), show k.val - i = k.val - (i + 1) + 1 by omega, List.getD_cons_succ]
  frame l hl hne := by
    rw [List.length_cons] at hne
    rw [h'.frame l hl fun k hle hlt => hne k (by omega) (by omega),
      h.frame l hl fun k hle hlt => hne k hle (by rw [List.length_singleton] at hlt; omega)]
  portErrorFree hfree := h'.portErrorFree (h.portErrorFree hfree)

theorem CellsLoaded.nil {s : State} (hs : s.Inv) (i : Nat) : CellsLoaded cell i [] [] s s where
  inv := hs
  loaded k hle hlt := by rw [List.length_nil] at hlt; omega
  frame _ _ _ := rfl
  portErrorFree := id

/-- The writes of the load pseudo-instructions (R101), one cell after the other. -/
theorem HostBuffer.runProgram_cellWrites (hb : HostBuffer first cell mem) (base : Nat) {i : Nat} {bs : List Byte}
    {s : State} (hs : s.Inv) (hfit : i + bs.length ≤ size) :
    ∃ t, runProgram base (cellWrites first i bs) s = .next t ∧ CellsLoaded cell i bs [] s t := by
  induction bs generalizing i s with
  | nil => exact ⟨s, rfl, CellsLoaded.nil hs i⟩
  | cons b bs ih =>
    rw [List.length_cons] at hfit
    obtain ⟨u, hu, hfirst⟩ := hb.write_byte ⟨i, by omega⟩ b hs
    obtain ⟨t, ht, hrest⟩ := ih hfirst.inv (i := i + 1) (by omega)
    exact ⟨t, (runProgram_wr hu _).trans ht, hfirst.cons hb hrest⟩

/-- The writes followed by the line that stores how many bytes there are. -/
theorem HostBuffer.runProgram_load (hb : HostBuffer first cell mem) (r : OperandReg) (base : Nat) {bs : List Byte}
    {s : State} (hs : s.Inv) (hfit : bs.length ≤ size) :
    ∃ t, runProgram base (cellWrites first 0 bs ++ [wrLoc (.operand r) (BitVec.ofNat 32 bs.length)]) s = .next t ∧
      t.contents (.operand r) = BitVec.ofNat 32 bs.length ∧ CellsLoaded cell 0 bs [.operand r] s t := by
  obtain ⟨u, hu, hcells⟩ := hb.runProgram_cellWrites base hs (i := 0) (bs := bs) (by omega)
  obtain ⟨t, ht, hlength, hframe, -, hresponses⟩ := operandWriteStoresTheWholeWord u r (BitVec.ofNat 32 bs.length)
  refine ⟨t, (runProgram_append hu _).trans (runProgram_wr ht _), hlength, perform_inv hcells.inv ht, ?_, ?_, ?_⟩
  · exact fun k hle hlt => (hframe _ (hb.cell_ne_operand k r)).trans (hcells.loaded k hle hlt)
  · intro l hl hne
    rw [hframe l (by simpa using hl), hcells.frame l (by simp) hne]
  · exact fun hfree => portErrorFree_of_done hresponses (hcells.portErrorFree hfree)

/-- The first cells of the buffer are the bytes loaded. -/
theorem CellsLoaded.bytes_eq (hb : HostBuffer first cell mem) {bs : List Byte} {except : List Loc} {s t : State}
    (h : CellsLoaded cell 0 bs except s t) (hfit : bs.length ≤ size) : (mem t).bytes bs.length = bs := by
  rw [← Memory.bytes_ofBytes bs, Memory.length_bytes]
  refine Memory.bytes_eq_of_contents hfit fun k hk => ?_
  rw [← hb.contents, h.loaded k (Nat.zero_le _) (by omega), Memory.read_ofBytes, Nat.sub_zero]

/-- A byte is known from its zero extension. -/
theorem setWidth_word_injective {b c : Byte} (h : b.setWidth 32 = c.setWidth 32) : b = c := by bv_omega

/-- The cells beyond keep what they held. -/
theorem CellsLoaded.read_beyond (hb : HostBuffer first cell mem) {bs : List Byte} {except : List Loc} {s t : State}
    (h : CellsLoaded cell 0 bs except s t) (hs : s.Inv) (hexcept : ∀ k, cell k ∉ except) {i : Nat}
    (hi : bs.length ≤ i) : (mem t).read i = (mem s).read i := by
  by_cases hsize : i < size
  · have hcell : t.contents (cell ⟨i, hsize⟩) = s.contents (cell ⟨i, hsize⟩) :=
      h.frame _ (hexcept _) fun k _ hlt he => by have := hb.cell_injective he; dsimp only at this; omega
    rw [hb.contents, hb.contents] at hcell
    exact setWidth_word_injective hcell
  · rw [Memory.read_of_size_le (hb.wf t h.inv) (by omega), Memory.read_of_size_le (hb.wf s hs) (by omega)]

end

/-! ## LDKEY, LDIBUF, LDDIGEST -/

theorem toNat_length {bs : List Byte} (h : bs.length ≤ 256) : (BitVec.ofNat 32 bs.length).toNat = bs.length := by
  rw [BitVec.toNat_ofNat]
  omega

/-- Settles O55: the cells of `KEY`, then `KEYLEN`. -/
theorem loadKeyWritesTheSecret : Obligations.LoadKeyWritesTheSecret := by
  intro base s b hs hlen
  obtain ⟨t, ht, hkeylen, hload⟩ := hostBuffer_key.runProgram_load .keylen base hs hlen
  have hlength : t.keylen.toNat = b.length := (congrArg BitVec.toNat hkeylen).trans (toNat_length hlen)
  refine ⟨_, t, if_pos hlen, ht, ?_, hlength, fun i hi => ?_, fun l hl hne => ?_, hload.portErrorFree⟩
  · rw [State.secret, hlength, hload.bytes_eq hostBuffer_key hlen]
  · exact hload.read_beyond hostBuffer_key hs (by simp) hi
  · exact hload.frame l (by simpa using hl) fun k _ _ => hne k

/-- Settles O56: the cells of `IBUF`, then `ILEN`; the cells of `DIGEST` alone. -/
theorem loadInputAndDigestWriteTheirBuffers : Obligations.LoadInputAndDigestWriteTheirBuffers := by
  refine fun base s b hs => ⟨fun hlen => ?_, fun hlen => ?_⟩
  · obtain ⟨t, ht, hilen, hload⟩ := hostBuffer_ibuf.runProgram_load .ilen base hs hlen
    have hlength : t.ilen.toNat = b.length := (congrArg BitVec.toNat hilen).trans (toNat_length hlen)
    refine ⟨_, t, if_pos hlen, ht, ?_, hlength, fun i hi => ?_, fun l hl hne => ?_, hload.portErrorFree⟩
    · rw [State.codecInput, hlength, hload.bytes_eq hostBuffer_ibuf hlen]
    · exact hload.read_beyond hostBuffer_ibuf hs (by simp) hi
    · exact hload.frame l (by simpa using hl) fun k _ _ => hne k
  · obtain ⟨t, ht, hload⟩ := hostBuffer_digest.runProgram_cellWrites base hs (i := 0) (by simpa using hlen)
    refine ⟨_, t, if_pos hlen, ht, hload.bytes_eq hostBuffer_digest hlen, fun i hi => ?_, fun l hne => ?_,
      hload.portErrorFree⟩
    · exact hload.read_beyond hostBuffer_digest hs (by simp) hi
    · exact hload.frame l (by simp) fun k _ _ => hne k

/-! ## RDBUF -/

theorem dataRead_append_data (rs : List Response) (v : Word) : dataRead (rs ++ [.data v]) = dataRead rs ++ [v] := by
  rw [dataRead, List.filterMap_append]
  rfl

theorem perform_rdLoc (l : Loc) (s : State) :
    perform (rdLoc l).event s = .next (s.respond (.data (portValue s l))) := by
  rw [← readResponse_portOffset]
  rfl

theorem portValue_respond (s : State) (r : Response) : portValue (s.respond r) = portValue s := by
  funext l
  unfold portValue
  split <;> simp only [State.contents_respond]

/-- Reads of a list of locations return what the port shows of them, in order. -/
theorem runProgram_map_rdLoc (base : Nat) (ls : List Loc) (s : State) :
    ∃ t, runProgram base (ls.map rdLoc) s = .next t ∧
      dataRead t.responses = dataRead s.responses ++ ls.map (portValue s) := by
  induction ls generalizing s with
  | nil => exact ⟨s, rfl, (List.append_nil _).symm⟩
  | cons l ls ih =>
    obtain ⟨t, ht, hdata⟩ := ih (s.respond (.data (portValue s l)))
    refine ⟨t, (runProgram_cons (perform_rdLoc l s) _).trans ht, ?_⟩
    simp only [hdata, State.respond_responses, dataRead_append_data, portValue_respond, List.map_cons,
      List.append_assoc, List.singleton_append]

theorem runProgram_rdBuf {size n : Nat} (cell : Fin size → Loc) (h : n ≤ size) (base : Nat) {s : State}
    {value : Nat → Word} (hvalue : ∀ k, portValue s (cell k) = value k.val) :
    ∃ p t, rdBuf cell n = some p ∧ runProgram base p s = .next t ∧
      dataRead t.responses = dataRead s.responses ++ (List.range n).map value := by
  obtain ⟨t, ht, hdata⟩ := runProgram_map_rdLoc base ((List.finRange n).map fun i => cell (i.castLE h)) s
  rw [List.map_map] at ht
  refine ⟨_, t, dif_pos h, ht, ?_⟩
  simp only [hdata, List.map_map, ← List.map_coe_finRange_eq_range, Function.comp_def, hvalue, Fin.val_castLE]

/-- Settles O58: each line reads one cell, and the port shows 0 of the cells of `KEY`. -/
theorem readBufferReturnsTheBytes : Obligations.ReadBufferReturnsTheBytes := by
  refine fun base n s => ⟨fun h => ?_, fun h => ?_, fun h => ?_, fun h => ?_, fun h => ?_⟩
  · exact runProgram_rdBuf .code h base fun _ => rfl
  · exact runProgram_rdBuf .digest h base fun _ => rfl
  · exact runProgram_rdBuf .ibuf h base fun _ => rfl
  · exact runProgram_rdBuf .obuf h base fun _ => rfl
  · have hzeros := runProgram_rdBuf .key h base (s := s) (value := fun _ => 0) fun _ => rfl
    rwa [List.map_const', List.length_range] at hzeros

end Sys2Proof.Machine
end

