-- ==== Sys2Proof/Proofs/Base32Bits.lean ====
section
/-! The codec as re-cutting one stream of bits (spec/40_base32_codec.md R111, R112, R115): a text is the 5-bit fields of
the bits of its bytes, the decoded bytes are the 8-bit fields of the bits of the kept values. -/

namespace Sys2Proof.Machine

/-! ## Fields of a stream of bits -/

/-- The number whose bits are the `n` bits of the stream from position `i` on, first bit most significant. -/
def bitField (f : Nat → Bool) (i n : Nat) : Nat := Nat.ofBits fun k : Fin n => f (i + (n - 1 - k))

theorem bitField_lt (f : Nat → Bool) (i n : Nat) : bitField f i n < 2 ^ n := Nat.ofBits_lt_two_pow _

theorem testBit_bitField (f : Nat → Bool) (i n j : Nat) :
    (bitField f i n).testBit j = (decide (j < n) && f (i + (n - 1 - j))) := by
  rw [bitField, Nat.testBit_ofBits]
  by_cases h : j < n <;> simp [h]

@[simp] theorem bitField_zero (f : Nat → Bool) (i : Nat) : bitField f i 0 = 0 := Nat.ofBits_zero _

/-- The next bit of the stream becomes the last bit of the field. -/
theorem bitField_succ (f : Nat → Bool) (i n : Nat) : bitField f i (n + 1) = 2 * bitField f i n + (f (i + n)).toNat := by
  have hinit : ((fun k : Fin (n + 1) => f (i + (n + 1 - 1 - k))) ∘ Fin.succ) = fun k : Fin n => f (i + (n - 1 - k)) :=
    funext fun k => congrArg (fun j => f (i + j)) (by simp only [Fin.val_succ]; omega)
  rw [bitField, Nat.ofBits_succ, hinit]
  rfl

/-- A number of `n` bits is the field that holds those bits. -/
theorem eq_bitField {f : Nat → Bool} {i n x : Nat} (hx : x < 2 ^ n) (h : ∀ j < n, x.testBit j = f (i + (n - 1 - j))) :
    x = bitField f i n := by
  refine Nat.eq_of_testBit_eq fun j => ?_
  rw [testBit_bitField]
  by_cases hj : j < n
  · simp [hj, h j hj]
  · simp [hj, Nat.testBit_lt_two_pow (Nat.lt_of_lt_of_le hx (Nat.pow_le_pow_right (by decide) (Nat.le_of_not_lt hj)))]

/-- Equal bits give equal fields, wherever they stand in their streams. -/
theorem bitField_congr {f g : Nat → Bool} {i i' n : Nat} (h : ∀ k < n, f (i + k) = g (i' + k)) :
    bitField f i n = bitField g i' n := by
  refine eq_bitField (bitField_lt f i n) fun j hj => ?_
  rw [testBit_bitField, h (n - 1 - j) (by omega)]
  simp [hj]

/-- The first `count` fields of `n` bits each, from position `i` on. -/
def bitFields (f : Nat → Bool) (n i count : Nat) : List Nat :=
  (List.range count).map fun j => bitField f (i + n * j) n

@[simp] theorem length_bitFields (f : Nat → Bool) (n i count : Nat) : (bitFields f n i count).length = count := by
  simp [bitFields]

theorem getElem_bitFields {f : Nat → Bool} {n i count j : Nat} (h : j < (bitFields f n i count).length) :
    (bitFields f n i count)[j] = bitField f (i + n * j) n := by
  simp [bitFields]

theorem lt_of_mem_bitFields {f : Nat → Bool} {n i count v : Nat} (h : v ∈ bitFields f n i count) : v < 2 ^ n := by
  obtain ⟨j, -, rfl⟩ := List.mem_map.mp h
  exact bitField_lt ..

/-- Two streams that agree on the bits of the fields have the same fields. -/
theorem bitFields_congr {f g : Nat → Bool} {n count : Nat} (h : ∀ k < n * count, f k = g k) :
    bitFields f n 0 count = bitFields g n 0 count := by
  refine List.map_congr_left fun j hj => bitField_congr fun k hk => h _ ?_
  have hnext : n * (j + 1) ≤ n * count := Nat.mul_le_mul_left n (List.mem_range.mp hj)
  rw [Nat.mul_succ] at hnext
  omega

/-! ## The stream of a byte sequence and of a sequence of values -/

/-- The bits of a byte sequence, most significant bit of byte 0 first, zeros after them (R111, R112). -/
def byteBits (b : List Byte) (k : Nat) : Bool := (b.getD (k / 8) 0).getLsbD (7 - k % 8)

/-- The bits of a sequence of 5-bit values, most significant bit of each value first (R115). -/
def valueBits (w : List Nat) (k : Nat) : Bool := (w.getD (k / 5) 0).testBit (4 - k % 5)

theorem byteBits_of_le {b : List Byte} {k : Nat} (h : 8 * b.length ≤ k) : byteBits b k = false := by
  rw [byteBits, List.getD_eq_default _ _ (by omega)]
  exact BitVec.getLsbD_zero

theorem shiftRight_and_one (x i : Nat) : x >>> i &&& 1 = (x.testBit i).toNat := by
  rw [Nat.and_one_is_mod, Nat.shiftRight_eq_div_pow, Nat.toNat_testBit]

theorem encBit_eq (b : List Byte) (k : Nat) : encBit b k = (byteBits b k).toNat := by
  unfold encBit
  split
  · rw [shiftRight_and_one, BitVec.testBit_toNat, byteBits]
  · next h => rw [byteBits_of_le (Nat.le_of_not_lt h), Bool.toNat_false]

theorem decBit_eq (w : List Nat) (k : Nat) : decBit w k = (valueBits w k).toNat := shiftRight_and_one ..

/-- A byte is the 8-bit field of its place. -/
theorem toNat_getElem_eq_bitField (b : List Byte) (i : Nat) (h : i < b.length) :
    b[i].toNat = bitField (byteBits b) (8 * i) 8 := by
  refine eq_bitField b[i].isLt fun j hj => ?_
  have hbyte : (8 * i + (8 - 1 - j)) / 8 = i := by omega
  have hbit : 7 - (8 * i + (8 - 1 - j)) % 8 = j := by omega
  rw [byteBits, hbyte, hbit, List.getD_eq_getElem _ _ h, BitVec.testBit_toNat]

/-- The bits of 5-bit fields are the bits they were cut from. -/
theorem valueBits_bitFields {f : Nat → Bool} {count k : Nat} (h : k < 5 * count) :
    valueBits (bitFields f 5 0 count) k = f k := by
  have hfield : k / 5 < (bitFields f 5 0 count).length := by rw [length_bitFields]; omega
  have hbit : 0 + 5 * (k / 5) + (5 - 1 - (4 - k % 5)) = k := by omega
  have hlt : 4 - k % 5 < 5 := by omega
  rw [valueBits, List.getD_eq_getElem _ _ hfield, getElem_bitFields, testBit_bitField, hbit, decide_eq_true hlt,
    Bool.true_and]

/-! ## Encode and Decode -/

theorem encGroup_eq (b : List Byte) (j : Nat) : encGroup b j = bitField (byteBits b) (5 * j) 5 := by
  simp only [encGroup, encBit_eq, bitField_succ, bitField_zero, Nat.add_zero]
  omega

theorem decByte_eq (w : List Nat) (i : Nat) : decByte w i = bitField (valueBits w) (8 * i) 8 := by
  simp only [decByte, List.range_succ, List.range_zero, List.nil_append, List.cons_append, List.map_cons, List.map_nil,
    List.sum_cons, List.sum_nil, decBit_eq, bitField_succ, bitField_zero, Nat.add_zero]
  omega

theorem b32Enc_eq (b : List Byte) : b32Enc b = (bitFields (byteBits b) 5 0 (encLength b.length)).map alpha := by
  simp [b32Enc, bitFields, encGroup_eq]

theorem b32Dec_eq (t : List Byte) : b32Dec t =
    (bitFields (valueBits (keptValues t)) 8 0 (decLength (keptValues t).length)).map (BitVec.ofNat 8) := by
  simp [b32Dec, bitFields, decByte_eq]

/-- A byte sequence is the 8-bit fields of its own bits. -/
theorem map_bitFields_byteBits (b : List Byte) : (bitFields (byteBits b) 8 0 b.length).map (BitVec.ofNat 8) = b := by
  refine List.ext_getElem (by simp) fun i _ hi => ?_
  rw [List.getElem_map, getElem_bitFields, Nat.zero_add, ← toNat_getElem_eq_bitField b i hi, BitVec.ofNat_toNat,
    BitVec.setWidth_eq]

end Sys2Proof.Machine
end

