-- ==== Sys2Proof/Proofs/Base32Text.lean ====
section
/-! What holds of the texts the codec makes and takes (spec/40_base32_codec.md R118, R119, R121, R124). -/

namespace Sys2Proof.Machine

/-! ## The alphabet -/

/-- The two ranges of the alphabet: 'A' to 'Z' and '2' to '7' (R110). -/
abbrev AlphabetChar (c : Byte) : Prop := (0x41 ≤ c.toNat ∧ c.toNat ≤ 0x5A) ∨ (0x32 ≤ c.toNat ∧ c.toNat ≤ 0x37)

theorem alphabetChar_alpha : ∀ v < 32, AlphabetChar (alpha v) := by decide

/-- A character of the alphabet is kept, with its value. -/
theorem val_upper_alpha : ∀ v < 32, val (upper (alpha v)) = some v := by decide

theorem keptValues_map_alpha {w : List Nat} (h : ∀ v ∈ w, v < 32) : keptValues (w.map alpha) = w := by
  rw [keptValues, List.filterMap_map]
  exact (List.filterMap_congr fun v hv => val_upper_alpha v (h v hv)).trans List.filterMap_some

/-- All characters of an encoded text are kept, and their values are the 5-bit groups. -/
theorem keptValues_b32Enc (b : List Byte) :
    keptValues (b32Enc b) = bitFields (byteBits b) 5 0 (encLength b.length) := by
  rw [b32Enc_eq]
  exact keptValues_map_alpha fun v hv => lt_of_mem_bitFields hv

theorem alphabetChar_of_mem_b32Enc {b : List Byte} {c : Byte} (h : c ∈ b32Enc b) : AlphabetChar c := by
  rw [b32Enc_eq] at h
  obtain ⟨v, hv, rfl⟩ := List.mem_map.mp h
  exact alphabetChar_alpha v (lt_of_mem_bitFields hv)

/-- Of the bits of an encoded text the first are the bits of the bytes, the rest of the last group is zero. -/
theorem decBit_keptValues_b32Enc {b : List Byte} {k : Nat} (h : k < 5 * (b32Enc b).length) :
    decBit (keptValues (b32Enc b)) k = (byteBits b k).toNat := by
  rw [length_b32Enc] at h
  rw [keptValues_b32Enc, decBit_eq, valueBits_bitFields h]

/-- The 5-bit groups of `n` bytes hold exactly `n` whole bytes. -/
theorem decLength_encLength (n : Nat) : decLength (encLength n) = n := by
  unfold decLength encLength
  omega

theorem encLength_mod_eight (n : Nat) : encLength n % 8 = 0 ∨ encLength n % 8 = 2 ∨ encLength n % 8 = 4 ∨
    encLength n % 8 = 5 ∨ encLength n % 8 = 7 := by
  unfold encLength
  omega

/-- Settles O29: the 8-bit fields of the bits that the text spells are the bytes. -/
theorem decodeOfEncodeIsTheInput : Obligations.DecodeOfEncodeIsTheInput := by
  intro b
  have hfields : bitFields (valueBits (bitFields (byteBits b) 5 0 (encLength b.length))) 8 0 b.length =
      bitFields (byteBits b) 8 0 b.length :=
    bitFields_congr fun k hk => valueBits_bitFields (by unfold encLength; omega)
  rw [b32Dec_eq, keptValues_b32Enc, length_bitFields, decLength_encLength, hfields, map_bitFields_byteBits]

/-! ## What Decode ignores -/

theorem b32Dec_congr {t t' : List Byte} (h : keptValues t = keptValues t') : b32Dec t = b32Dec t' := by
  rw [b32Dec_eq, b32Dec_eq, h]

theorem upper_eq_of_other_case {c c' : Byte} (hc : 0x41 ≤ c.toNat ∧ c.toNat ≤ 0x5A) (h : c'.toNat = c.toNat + 0x20) :
    upper c = upper c' := by
  refine BitVec.eq_of_toNat_eq ?_
  rw [upper_toNat, upper_toNat, if_neg (by omega), if_pos (by omega), h, Nat.add_sub_cancel]

theorem keptValues_congr {t t' : List Byte} (h : List.Forall₂ (fun c c' => upper c = upper c') t t') :
    keptValues t = keptValues t' := by
  induction h with
  | nil => rfl
  | cons hc _ ih => simp only [keptValues, List.filterMap_cons, hc] at ih ⊢; rw [ih]

/-- R113, R114: a byte that is no letter and no digit '2' to '7' is discarded. -/
theorem val_upper_of_foreign {c : Byte} (h : ¬((0x32 ≤ c.toNat ∧ c.toNat ≤ 0x37) ∨
    (0x41 ≤ c.toNat ∧ c.toNat ≤ 0x5A) ∨ (0x61 ≤ c.toNat ∧ c.toNat ≤ 0x7A))) : val (upper c) = none := by
  obtain ⟨hdigit, hletters⟩ := not_or.mp h
  obtain ⟨hupper, hlower⟩ := not_or.mp hletters
  rw [keptCharactersAndTheirValues c, if_neg hupper, if_neg hlower, if_neg hdigit]

/-- Settles O31: neither change alters the sequence of kept values. -/
theorem decodeIgnoresCaseAndForeignCharacters : Obligations.DecodeIgnoresCaseAndForeignCharacters := by
  constructor
  · intro t t' h
    refine b32Dec_congr (keptValues_congr (h.imp fun c c' hcase => ?_))
    obtain rfl | ⟨hlow, hhigh, hto⟩ | ⟨hlow, hhigh, hto⟩ := hcase
    · rfl
    · exact upper_eq_of_other_case ⟨hlow, hhigh⟩ hto
    · exact (upper_eq_of_other_case ⟨hlow, hhigh⟩ hto).symm
  · intro t u c hc
    refine b32Dec_congr ?_
    simp only [keptValues, List.filterMap_append, List.filterMap_cons, val_upper_of_foreign hc]

/-! ## The form of an encoded text -/

/-- Settles O32: the text has one character of the alphabet for each 5-bit group. -/
theorem encodedTextIsInTheAlphabet : Obligations.EncodedTextIsInTheAlphabet := by
  intro b
  rw [length_b32Enc]
  exact ⟨rfl, encLength_mod_eight b.length, fun _ => alphabetChar_of_mem_b32Enc⟩

/-- Settles O33: a text that is given back is the encoded text of its decoded bytes, so it has that form, and the bits
beyond the bytes are padding. -/
theorem encodeOfDecodeOnlyOnCanonicalText : Obligations.EncodeOfDecodeOnlyOnCanonicalText := by
  refine ⟨fun t h => ?_, by decide, by decide⟩
  generalize b32Dec t = b at h
  subst h
  refine ⟨fun _ => alphabetChar_of_mem_b32Enc, ?_, fun k hlow hhigh => ?_⟩
  · rw [length_b32Enc]
    exact encLength_mod_eight b.length
  · have hbytes : 5 * (b32Enc b).length / 8 = b.length := by rw [length_b32Enc]; exact decLength_encLength b.length
    rw [decBit_keptValues_b32Enc hhigh, byteBits_of_le (hbytes ▸ hlow), Bool.toNat_false]

end Sys2Proof.Machine
end

