-- ==== Sys2Proof/Proofs/Base32Streaming.lean ====
section
/-! The streaming form of the codec (spec/40_base32_codec.md R120). The accumulator holds the field of the bits that
were taken in and not yet given out: a byte or a value lengthens the field, an output character or byte shortens it. -/

namespace Sys2Proof.Machine

/-! ## The accumulator is a field of the stream -/

/-- Taking in the next `m` bits. -/
theorem shiftLeft_or_bitField (f : Nat → Bool) (i n m : Nat) :
    bitField f i n <<< m ||| bitField f (i + n) m = bitField f i (n + m) := by
  refine Nat.eq_of_testBit_eq fun j => ?_
  rw [Nat.testBit_or, Nat.testBit_shiftLeft, testBit_bitField, testBit_bitField, testBit_bitField]
  by_cases hj : j < m
  · have hbit : i + (n + m - 1 - j) = i + n + (m - 1 - j) := by omega
    simp [hj, hbit, Nat.lt_add_left n hj]
  · have hbit : i + (n + m - 1 - j) = i + (n - 1 - (j - m)) := by omega
    have hlt : j - m < n ↔ j < n + m := by omega
    simp [hj, hbit, hlt, Nat.le_of_not_lt hj]

/-- Without its last `m` bits a field is its first part. -/
theorem bitField_shiftRight (f : Nat → Bool) (i n m : Nat) : bitField f i (n + m) >>> m = bitField f i n := by
  refine eq_bitField ?_ fun j hj => ?_
  · rw [Nat.shiftRight_eq_div_pow, Nat.div_lt_iff_lt_mul (Nat.two_pow_pos m), ← Nat.pow_add]
    exact bitField_lt ..
  · have hlt : m + j < n + m := by omega
    have hbit : n + m - 1 - (m + j) = n - 1 - j := by omega
    rw [Nat.testBit_shiftRight, testBit_bitField, hbit, decide_eq_true hlt, Bool.true_and]

/-- The mask keeps the last `m` bits. -/
theorem bitField_and_mask (f : Nat → Bool) (i n m : Nat) :
    bitField f i (n + m) &&& (2 ^ m - 1) = bitField f (i + n) m := by
  rw [← shiftLeft_or_bitField, Nat.and_two_pow_sub_one_eq_mod, ← Nat.shiftLeft_add_eq_or_of_lt (bitField_lt ..),
    Nat.shiftLeft_eq, Nat.mul_add_mod_self_right, Nat.mod_eq_of_lt (bitField_lt ..)]

/-- The field given out of the accumulator. -/
theorem bitField_shiftRight_and_mask (f : Nat → Bool) (i n m : Nat) :
    bitField f i (n + m) >>> m &&& (2 ^ n - 1) = bitField f i n := by
  rw [bitField_shiftRight]
  exact Nat.and_two_pow_sub_one_of_lt_two_pow (bitField_lt ..)

theorem bitFields_succ (f : Nat → Bool) (n i count : Nat) :
    bitFields f n i (count + 1) = bitField f i n :: bitFields f n (i + n) count := by
  simp [bitFields, List.range_succ_eq_map, Nat.mul_succ, Nat.add_assoc, Nat.add_comm n]

theorem bitFields_add (f : Nat → Bool) (n i count count' : Nat) :
    bitFields f n i (count + count') = bitFields f n i count ++ bitFields f n (i + n * count) count' := by
  simp [bitFields, List.range_add, Nat.mul_add, Nat.add_assoc]

/-! ## The encoder -/

theorem byteBits_cons_add (x : Byte) (xs : List Byte) (k : Nat) : byteBits (x :: xs) (8 + k) = byteBits xs k := by
  have hbyte : (8 + k) / 8 = k / 8 + 1 := by omega
  rw [byteBits, hbyte, List.getD_cons_succ, Nat.add_mod_left, byteBits]

theorem encDrain_bitField (f : Nat → Bool) (turns i rest : Nat) :
    encDrain turns (bitField f i (5 * turns + rest)) (5 * turns + rest) =
      ((bitFields f 5 i turns).map alpha, bitField f (i + 5 * turns) rest, rest) := by
  induction turns generalizing i with
  | zero => simp [encDrain, bitFields]
  | succ turns ih =>
    have hlen : 5 * (turns + 1) + rest = 5 + (5 * turns + rest) := by omega
    have hnext : i + 5 + 5 * turns = i + 5 * (turns + 1) := by omega
    have hout : bitField f i (5 + (5 * turns + rest)) >>> (5 * turns + rest) &&& 31 = bitField f i 5 :=
      bitField_shiftRight_and_mask f i 5 _
    rw [hlen, encDrain, Nat.add_sub_cancel_left, bitField_and_mask, ih, hout, bitFields_succ, List.map_cons, hnext]

/-- The drain gives out every whole group the accumulator holds. -/
theorem encDrain_whole_groups (f : Nat → Bool) (i nb : Nat) : encDrain (nb / 5) (bitField f i nb) nb =
    ((bitFields f 5 i (nb / 5)).map alpha, bitField f (i + 5 * (nb / 5)) (nb % 5), nb % 5) := by
  have hdrain := encDrain_bitField f (nb / 5) i (nb % 5)
  rwa [Nat.div_add_mod] at hdrain

/-- The short group at the end, zero padded. -/
theorem bitField_shiftLeft_and_mask {f : Nat → Bool} {i n m : Nat} (hzero : ∀ k < m, f (i + n + k) = false) :
    bitField f i n <<< m &&& (2 ^ (n + m) - 1) = bitField f i (n + m) := by
  have htail : 0 = bitField f (i + n) m := eq_bitField (Nat.two_pow_pos m) fun j hj => by
    rw [hzero _ (by omega), Nat.zero_testBit]
  rw [← Nat.or_zero (_ <<< m), htail, shiftLeft_or_bitField]
  exact Nat.and_two_pow_sub_one_of_lt_two_pow (bitField_lt ..)

/-- With fewer than five bits in the accumulator and the bytes `xs` to come, the encoder gives out the characters of the
5-bit groups from the accumulator's first bit on. -/
theorem encStream_bitField {f : Nat → Bool} {i nb : Nat} {xs : List Byte} (hnb : nb < 5)
    (hbits : ∀ k, f (i + nb + k) = byteBits xs k) :
    encStream (bitField f i nb) nb xs = (bitFields f 5 i ((nb + 8 * xs.length + 4) / 5)).map alpha := by
  induction xs generalizing i nb with
  | nil =>
    have hlen : nb + (5 - nb) = 5 := by omega
    have hgroup : bitField f i nb <<< (5 - nb) &&& 31 = bitField f i 5 := by
      have hpad := bitField_shiftLeft_and_mask (m := 5 - nb) fun k _ => (hbits k).trans (byteBits_of_le (Nat.zero_le k))
      rwa [hlen] at hpad
    rw [encStream, hgroup]
    split
    · have hcount : (nb + 4) / 5 = 0 + 1 := by omega
      rw [List.length_nil, Nat.mul_zero, Nat.add_zero, hcount, bitFields_succ]
      rfl
    · obtain rfl : nb = 0 := by omega
      rfl
  | cons x xs ih =>
    have hbyte : x.toNat = bitField f (i + nb) 8 :=
      (toNat_getElem_eq_bitField (x :: xs) 0 (by simp)).trans (bitField_congr fun k _ => by rw [hbits, Nat.zero_add])
    have htaken : bitField f i nb <<< 8 ||| x.toNat = bitField f i (nb + 8) := by rw [hbyte, shiftLeft_or_bitField]
    have hrest : ∀ k, f (i + 5 * ((nb + 8) / 5) + (nb + 8) % 5 + k) = byteBits xs k := fun k => by
      rw [← byteBits_cons_add x, ← hbits]
      congr 1
      omega
    have hcount : (nb + 8 * (xs.length + 1) + 4) / 5 = (nb + 8) / 5 + ((nb + 8) % 5 + 8 * xs.length + 4) / 5 := by omega
    rw [encStream, htaken, encDrain_whole_groups]
    dsimp only
    rw [ih (Nat.mod_lt _ (by decide)) hrest, List.length_cons, hcount, bitFields_add,
      List.map_append]

theorem b32EncStream_eq (b : List Byte) : b32EncStream b = b32Enc b := by
  have hstream := encStream_bitField (f := byteBits b) (i := 0) (nb := 0) (xs := b) (by decide) fun k => by simp
  rw [Nat.zero_add] at hstream
  exact hstream.trans (b32Enc_eq b).symm

/-! ## The decoder -/

theorem keptValues_cons_none {c : Byte} (h : val (upper c) = none) (cs : List Byte) :
    keptValues (c :: cs) = keptValues cs := List.filterMap_cons_none h

theorem keptValues_cons_some {c : Byte} {v : Nat} (h : val (upper c) = some v) (cs : List Byte) :
    keptValues (c :: cs) = v :: keptValues cs := List.filterMap_cons_some h

/-- Every value has five bits (R15). -/
theorem val_lt {c : Byte} {v : Nat} (h : val c = some v) : v < 2 ^ 5 := by
  unfold val at h
  split_ifs at h <;> (obtain rfl := Option.some.inj h; omega)

theorem valueBits_cons_add (v : Nat) (w : List Nat) (k : Nat) : valueBits (v :: w) (5 + k) = valueBits w k := by
  have hvalue : (5 + k) / 5 = k / 5 + 1 := by omega
  rw [valueBits, hvalue, List.getD_cons_succ, Nat.add_mod_left, valueBits]

/-- The first five bits of a sequence of values are its first value. -/
theorem eq_bitField_valueBits {v : Nat} (hv : v < 2 ^ 5) (w : List Nat) : v = bitField (valueBits (v :: w)) 0 5 := by
  refine eq_bitField hv fun j hj => ?_
  have hvalue : (0 + (5 - 1 - j)) / 5 = 0 := by omega
  have hbit : 4 - (0 + (5 - 1 - j)) % 5 = j := by omega
  rw [valueBits, hvalue, hbit, List.getD_cons_zero]

/-- With fewer than eight bits in the accumulator and the characters `cs` to come, the decoder gives out the bytes of
the bits from the accumulator's first bit on. -/
theorem decStream_bitField {f : Nat → Bool} {i nb : Nat} {cs : List Byte} (hnb : nb < 8)
    (hbits : ∀ k, f (i + nb + k) = valueBits (keptValues cs) k) :
    decStream (bitField f i nb) nb cs =
      (bitFields f 8 i ((nb + 5 * (keptValues cs).length) / 8)).map (BitVec.ofNat 8) := by
  induction cs generalizing i nb with
  | nil =>
    have hcount : (nb + 5 * (keptValues []).length) / 8 = 0 := Nat.div_eq_of_lt hnb
    rw [hcount]
    rfl
  | cons c cs ih =>
    rw [decStream]
    split
    · next hval =>
      rw [keptValues_cons_none hval] at hbits ⊢
      exact ih hnb hbits
    · next v hval =>
      rw [keptValues_cons_some hval] at hbits ⊢
      have hvalue : v = bitField f (i + nb) 5 :=
        (eq_bitField_valueBits (val_lt hval) (keptValues cs)).trans
          (bitField_congr fun k _ => by rw [hbits, Nat.zero_add])
      have htaken : bitField f i nb <<< 5 ||| v = bitField f i (nb + 5) := by rw [hvalue, shiftLeft_or_bitField]
      have hrest : ∀ k, f (i + (nb + 5) + k) = valueBits (keptValues cs) k := fun k => by
        rw [← valueBits_cons_add v, ← hbits]
        simp only [Nat.add_assoc]
      rw [List.length_cons, htaken]
      by_cases hfull : 8 ≤ nb + 5
      · have hlen : nb + 5 = 8 + (nb - 3) := by omega
        have hcount : (nb + 5 * ((keptValues cs).length + 1)) / 8 =
            (nb - 3 + 5 * (keptValues cs).length) / 8 + 1 := by omega
        have hout : bitField f i (8 + (nb - 3)) >>> (nb - 3) &&& 0xFF = bitField f i 8 :=
          bitField_shiftRight_and_mask f i 8 _
        rw [hlen, ← Nat.add_assoc] at hrest
        simp only [if_pos hfull]
        rw [hlen, Nat.add_sub_cancel_left, hout, bitField_and_mask, ih (by omega) hrest, hcount, bitFields_succ,
          List.map_cons]
      · have hcount : nb + 5 * ((keptValues cs).length + 1) = nb + 5 + 5 * (keptValues cs).length := by omega
        simp only [if_neg hfull]
        rw [ih (Nat.lt_of_not_le hfull) hrest, hcount]

theorem b32DecStream_eq (t : List Byte) : b32DecStream t = b32Dec t := by
  have hstream := decStream_bitField (f := valueBits (keptValues t)) (i := 0) (nb := 0) (cs := t) (by decide)
    fun k => by simp
  rw [Nat.zero_add] at hstream
  exact hstream.trans (b32Dec_eq t).symm

/-- Settles O30: both accumulators start empty, before the first bit. -/
theorem streamingFormEqualsTheDefinition : Obligations.StreamingFormEqualsTheDefinition :=
  ⟨b32EncStream_eq, b32DecStream_eq⟩

end Sys2Proof.Machine
end

