-- ==== Sys2Proof/Proofs/CodecCommands.lean ====
section
/-! The commands `B32ENC` and `B32DEC` (spec/40_base32_codec.md R121 to R123): what a stored output leaves in the output
registers and buffer, and the commands as the codec functions on `IBUF[0..ILEN)`. -/

namespace Sys2Proof.Machine

/-! ## The stored output -/

theorem toNat_storeOutput_olen {out : List Byte} (h : out.length ≤ 512) (s : State) :
    (s.storeOutput out).complete.olen.toNat = out.length := by
  rw [State.complete_eq, State.setStatus_olen, State.storeOutput_olen, BitVec.toNat_ofNat]
  omega

theorem read_storeOutput_obuf (s : State) (out : List Byte) (j : Nat) :
    (s.storeOutput out).complete.obuf.read j = out.getD j 0 := by simp

theorem sameExcept_storeOutput (s : State) (out : List Byte) :
    SameExcept (fun l => l = .status ∨ l = .result .olen ∨ ∃ i, l = .obuf i) s (s.storeOutput out).complete := by
  refine ⟨fun l hl => ?_, rfl, rfl⟩
  obtain ⟨hstatus, hwrites⟩ := not_or.mp hl
  refine (contents_setStatus_of_ne hstatus _ _).trans (contents_storeOutput_of_not_written ?_ s out)
  refine Bool.eq_false_iff.mpr fun hwritten => hwrites ?_
  simp only [commandWrites] at hwritten
  split at hwritten
  · exact .inl rfl
  · exact .inr ⟨_, rfl⟩
  · cases hwritten

/-- An output that fits leaves `OLEN` at its length, no cell beyond it, and `OBUF` in canonical form. -/
theorem storeOutput_fits {s t : State} {out : List Byte} {bound : Nat} (ht : t = (s.storeOutput out).complete)
    (h : out.length ≤ bound) (hbound : bound ≤ 512) :
    t.olen.toNat ≤ bound ∧ (∀ i, t.olen.toNat ≤ i → t.obuf.read i = 0) ∧ Memory.Wf 512 t.obuf := by
  have hfits : out.length ≤ 512 := Nat.le_trans h hbound
  rw [ht, toNat_storeOutput_olen hfits]
  exact ⟨h, fun i hi => (read_storeOutput_obuf s out i).trans (List.getD_eq_default _ _ hi), Memory.ofBytes_wf hfits⟩

/-! ## Success and rejection -/

/-- A command that reports success was in contract and ran. -/
theorem effect_of_statusDone {i : Instr} {s t : State} (h : exec i s = .next t) (hdone : statusDone t.status = true) :
    InContract i s ∧ CommandEffect i s t := by
  obtain ⟨-, rfl⟩ | heffect := exec_cases h
  · rw [State.reject_eq, State.setStatus_status, statusDone_rejected] at hdone
    cases hdone
  · exact heffect

/-- Settles O34: 256 bytes have at most 410 groups, 256 characters at most 160 bytes. -/
theorem codecOutputFitsTheBuffer : Obligations.CodecOutputFitsTheBuffer := by
  refine fun s t => ⟨fun h hdone => ?_, fun h hdone => ?_⟩
  · obtain ⟨hc, heffect⟩ := effect_of_statusDone h hdone
    exact storeOutput_fits heffect (length_b32Enc_codecInput_le hc) (by decide)
  · obtain ⟨hc, heffect⟩ := effect_of_statusDone h hdone
    exact storeOutput_fits heffect (length_b32Dec_codecInput_le hc) (by decide)

/-- A command that needs only its input length checked is rejected for capacity alone (R224). -/
theorem exec_of_ilen_over {i : Instr} (hneeds : commandNeeds i = [.ibuf]) {s : State} (h : 256 < s.ilen.toNat) :
    exec i s = .next { s with status := 0x00002022 } := by
  have hmask : argMask (commandNeeds i) s = 0x20 := by rw [hneeds]; simp [argMask, ilenOver, Config.ibufMax, h]
  have hc : ¬ InContract i s := by rw [← argMask_eq_zero_iff, hmask]; decide
  rw [exec_of_not_inContract hc, hmask]
  rfl

/-! ## The input -/

theorem byteBits_codecInput (s : State) (k : Nat) : (byteBits s.codecInput k).toNat =
    if k < 8 * s.ilen.toNat then ((s.ibuf.read (k / 8)).getLsbD (7 - k % 8)).toNat else 0 := by
  split
  · next h => rw [byteBits, State.codecInput, Memory.getD_bytes, if_pos (by omega)]
  · next h => rw [byteBits_of_le (by rw [length_codecInput]; omega), Bool.toNat_false]

theorem keptValues_codecInput (s : State) : keptValues s.codecInput =
    (List.range s.ilen.toNat).filterMap fun i => val (upper (s.ibuf.read i)) := List.filterMap_map ..

/-! ## The characters and the bytes of the output -/

theorem getD_b32Enc {b : List Byte} {j : Nat} (h : j < encLength b.length) :
    (b32Enc b).getD j 0 = alpha (encGroup b j) := by
  rw [List.getD_eq_getElem _ _ (by rwa [length_b32Enc])]
  simp [b32Enc]

theorem toNat_getD_b32Dec {t : List Byte} {i : Nat} (h : i < decLength (keptValues t).length) :
    ((b32Dec t).getD i 0).toNat = decByte (keptValues t) i := by
  have hlt : decByte (keptValues t) i < 2 ^ 8 := by rw [decByte_eq]; exact bitField_lt ..
  have hbyte : (b32Dec t).getD i 0 = BitVec.ofNat 8 (decByte (keptValues t) i) := by
    rw [List.getD_eq_getElem _ _ (by rwa [length_b32Dec])]
    simp [b32Dec]
  rw [hbyte, BitVec.toNat_ofNat, Nat.mod_eq_of_lt hlt]

/-- Settles O27: the stored output is the encoded text of the input, its groups cut from the bits of `IBUF`. -/
theorem encodeCommandWritesTheText : Obligations.EncodeCommandWritesTheText := by
  intro s n bit
  have hlen : (b32Enc s.codecInput).length = (8 * n + 4) / 5 := by rw [length_b32Enc, length_codecInput]; rfl
  refine ⟨fun hn => ⟨_, exec_b32enc hn, rfl, ?_, fun j hj => ?_, fun j hj => ?_, sameExcept_storeOutput s _⟩,
    exec_of_ilen_over rfl⟩
  · exact (toNat_storeOutput_olen (Nat.le_trans (length_b32Enc_codecInput_le hn) (by decide)) s).trans hlen
  · rw [read_storeOutput_obuf, getD_b32Enc (by rwa [← length_b32Enc, hlen])]
    simp only [encGroup, encBit_eq, byteBits_codecInput]
    rfl
  · rw [read_storeOutput_obuf, List.getD_eq_default _ _ (by rwa [hlen])]

/-- Settles O28: the stored output is the decoded bytes of the input, cut from the bits of the kept values. -/
theorem decodeCommandWritesTheBytes : Obligations.DecodeCommandWritesTheBytes := by
  intro s n w sbit
  have hkept : keptValues s.codecInput = w := keptValues_codecInput s
  have hlen : (b32Dec s.codecInput).length = 5 * w.length / 8 := by rw [length_b32Dec, hkept]; rfl
  refine ⟨fun hn => ⟨_, exec_b32dec hn, rfl, ?_, fun i hi => ?_, fun i hi => ?_, sameExcept_storeOutput s _⟩,
    exec_of_ilen_over rfl⟩
  · exact (toNat_storeOutput_olen (Nat.le_trans (length_b32Dec_codecInput_le hn) (by decide)) s).trans hlen
  · rw [read_storeOutput_obuf, toNat_getD_b32Dec (by rwa [← length_b32Dec, hlen]), hkept]
    simp only [decByte, decBit_eq]
    simp [List.range_succ, sbit, valueBits, Nat.add_assoc]
  · rw [read_storeOutput_obuf, List.getD_eq_default _ _ (by rwa [hlen])]

end Sys2Proof.Machine
end

