-- ==== Sys2Proof/Proofs/HashFunctions.lean ====
section
/-! The hash functions (spec/41_hmac_hash.md R141 to R156): big-endian numbers are read back, the padding fills the last
block, and the digests of short messages. -/

namespace Sys2Proof.Machine

/-! ## Big-endian numbers -/

theorem beNat_append_singleton (bs : List Byte) (b : Byte) : beNat (bs ++ [b]) = beNat bs * 256 + b.toNat := by
  simp [beNat]

/-- The last byte of `bytesBE` is the number's low byte (R11). -/
theorem bytesBE_succ (k v : Nat) : bytesBE (k + 1) v = bytesBE k (v / 256) ++ [BitVec.ofNat 8 v] := by
  have hshift : ∀ i < k, v >>> (8 * (k - i)) = (v / 256) >>> (8 * (k - 1 - i)) := by
    intro i hi
    rw [show v / 256 = v >>> 8 from (Nat.shiftRight_eq_div_pow v 8).symm, ← Nat.shiftRight_add]
    congr 1
    omega
  simp only [bytesBE, List.range_succ, List.map_append, List.map_singleton, Nat.add_sub_cancel, Nat.sub_self,
    Nat.mul_zero, Nat.shiftRight_zero]
  congr 1
  refine List.map_congr_left fun i hi => ?_
  rw [hshift i (List.mem_range.mp hi)]

/-- A number that fits `k` bytes is read back from them. -/
theorem beNat_bytesBE {k v : Nat} (h : v < 256 ^ k) : beNat (bytesBE k v) = v := by
  induction k generalizing v with
  | zero => rw [Nat.lt_one_iff.mp h]; rfl
  | succ k ih =>
    have hhigh : v / 256 < 256 ^ k := Nat.div_lt_of_lt_mul (by rwa [Nat.pow_succ'] at h)
    rw [bytesBE_succ, beNat_append_singleton, ih hhigh, BitVec.toNat_ofNat]
    exact Nat.div_add_mod' v 256

/-! ## Padding (R141) -/

theorem padZeros_lt (alg : HashAlg) (n : Nat) : padZeros alg n < alg.blockLen :=
  Nat.mod_lt _ (by cases alg <;> decide)

/-- With the zeros the padded length is a whole number of blocks. -/
theorem padZeros_fills (alg : HashAlg) (n : Nat) :
    (n + 1 + padZeros alg n + alg.lengthField) % alg.blockLen = 0 := by
  cases alg <;> simp only [padZeros, HashAlg.blockLen, HashAlg.lengthField] <;> omega

@[simp] theorem length_padMessage (alg : HashAlg) (msg : List Byte) :
    (padMessage alg msg).length = msg.length + 1 + padZeros alg msg.length + alg.lengthField := by
  simp only [padMessage, List.length_append, List.length_singleton, List.length_replicate, length_bytesBE]

/-- The bytes after the message, in order: 0x80, the zeros, the length field. -/
theorem padMessage_eq (alg : HashAlg) (msg : List Byte) : padMessage alg msg =
    msg ++ 0x80 :: (rep 0 (padZeros alg msg.length) ++ bytesBE alg.lengthField (8 * msg.length)) := by
  simp [padMessage]

theorem getD_padMessage_add (alg : HashAlg) (msg : List Byte) (i : Nat) (d : Byte) :
    (padMessage alg msg).getD (msg.length + i) d =
      (0x80 :: (rep 0 (padZeros alg msg.length) ++ bytesBE alg.lengthField (8 * msg.length))).getD i d := by
  rw [padMessage_eq, List.getD_append_right _ _ _ _ (Nat.le_add_right ..), Nat.add_sub_cancel_left]

theorem getD_padMessage_zeros (alg : HashAlg) (msg : List Byte) {j : Nat} (hj : j < padZeros alg msg.length)
    (d : Byte) : (padMessage alg msg).getD (msg.length + 1 + j) d = 0 := by
  rw [Nat.add_assoc, Nat.add_comm 1, getD_padMessage_add, List.getD_cons_succ,
    List.getD_append _ _ _ _ (by simpa using hj), List.getD_replicate _ hj]

theorem drop_padMessage (alg : HashAlg) (msg : List Byte) :
    (padMessage alg msg).drop (msg.length + 1 + padZeros alg msg.length) =
      bytesBE alg.lengthField (8 * msg.length) :=
  List.drop_left' (by simp only [List.length_append, List.length_singleton, List.length_replicate])

/-- Settles O36: the zeros are those of `padZeros`, and the length field is read back. -/
theorem paddingFillsWholeBlocks : Obligations.PaddingFillsWholeBlocks := by
  intro a m hfits
  refine ⟨padZeros a m.length, length_padMessage a m, padZeros_fills a m.length, padZeros_lt a m.length, ?_,
    getD_padMessage_add a m 0 0, fun j hj => getD_padMessage_zeros a m hj 1, ?_⟩
  · rw [padMessage_eq, List.take_left]
  · rw [drop_padMessage, beNat_bytesBE (by rwa [Nat.pow_mul] at hfits)]

/-! ## Digests -/

/-- Settles O37: the digest length of every hash function, as a number. -/
theorem digestHasItsLength : Obligations.DigestHasItsLength :=
  fun a m => (length_hashOf a m).trans (by cases a <;> rfl)

/-- Settles O38: the kernel runs each hash function over its one block. -/
theorem hashCheckValues : Obligations.HashCheckValues := by
  unfold Obligations.HashCheckValues
  and_intros <;> decide +kernel

end Sys2Proof.Machine
end

