-- ==== Sys2Proof/Proofs/Hmac.lean ====
section
/-! HMAC (spec/41_hmac_hash.md R158 to R161): it depends on the key only through the key's one block, the command stores
it, and the spec's vectors. -/

namespace Sys2Proof.Machine

/-! ## The key's block -/

theorem HashAlg.digestLen_le_blockLen (alg : HashAlg) : alg.digestLen ≤ alg.blockLen := by cases alg <;> decide

theorem hmacShortKey_of_long {alg : HashAlg} {key : List Byte} (h : alg.blockLen < key.length) :
    hmacShortKey alg key = hashOf alg key := if_pos h

theorem hmacShortKey_of_fits {alg : HashAlg} {key : List Byte} (h : key.length ≤ alg.blockLen) :
    hmacShortKey alg key = key := if_neg (Nat.not_lt.mpr h)

theorem length_hmacShortKey_le (alg : HashAlg) (key : List Byte) : (hmacShortKey alg key).length ≤ alg.blockLen := by
  rcases Nat.lt_or_ge alg.blockLen key.length with h | h
  · rw [hmacShortKey_of_long h, length_hashOf]; exact alg.digestLen_le_blockLen
  · rwa [hmacShortKey_of_fits h]

@[simp] theorem length_hmacBlockKey (alg : HashAlg) (key : List Byte) :
    (hmacBlockKey alg key).length = alg.blockLen := by
  rw [hmacBlockKey, List.length_append, List.length_replicate, Nat.add_sub_of_le (length_hmacShortKey_le alg key)]

theorem hmac_congr {alg : HashAlg} {key key' : List Byte} (h : hmacBlockKey alg key = hmacBlockKey alg key')
    (msg : List Byte) : hmac alg key msg = hmac alg key' msg := by
  simp only [hmac, hmacOpad, hmacIpad, h]

/-- The zero byte is the first of those that the shorter key is extended by (R159). -/
theorem hmacBlockKey_append_zero {alg : HashAlg} {key : List Byte} (h : key.length < alg.blockLen) :
    hmacBlockKey alg (key ++ [0]) = hmacBlockKey alg key := by
  have hfits : (key ++ [0]).length ≤ alg.blockLen := by rwa [List.length_append]
  have hzeros : alg.blockLen - key.length = (alg.blockLen - (key.length + 1)) + 1 := by omega
  rw [hmacBlockKey, hmacBlockKey, hmacShortKey_of_fits hfits, hmacShortKey_of_fits h.le, List.append_assoc,
    List.length_append, List.length_singleton, hzeros]
  rfl

/-- A digest is no longer than a block, so it is not hashed again. -/
theorem hmacBlockKey_hashOf {alg : HashAlg} {key : List Byte} (h : alg.blockLen < key.length) :
    hmacBlockKey alg (hashOf alg key) = hmacBlockKey alg key := by
  have hfits : (hashOf alg key).length ≤ alg.blockLen := by rw [length_hashOf]; exact alg.digestLen_le_blockLen
  rw [hmacBlockKey, hmacBlockKey, hmacShortKey_of_fits hfits, hmacShortKey_of_long h]

/-- Settles O39: in either class the two keys have the same block. -/
theorem hmacKeyLengthClasses : Obligations.HmacKeyLengthClasses := fun _ _ msg =>
  ⟨fun _ hshort => hmac_congr (hmacBlockKey_append_zero hshort) msg,
   fun hlong => hmac_congr (hmacBlockKey_hashOf hlong).symm msg⟩

/-! ## The nested hashes -/

theorem map_range_getD (f : Byte → Byte) {bs : List Byte} {n : Nat} (h : bs.length = n) :
    ((List.range n).map fun i => f (bs.getD i 0)) = bs.map f := by
  refine List.ext_getElem (by simp [h]) fun i _ hi => ?_
  rw [List.length_map] at hi
  rw [List.getElem_map, List.getElem_map, List.getElem_range, List.getD_eq_getElem _ _ hi]

/-- Settles O59: the two pads are the key's block, byte by byte. -/
theorem hmacIsTheNestedHash : Obligations.HmacIsTheNestedHash := by
  intro a key msg _ size short whole ipad opad
  have hsize : size = a.blockLen := by cases a <;> rfl
  have hwhole : whole = hmacBlockKey a key := by simp only [whole, short, hsize, hmacBlockKey, hmacShortKey]
  have hlen : whole.length = size := by rw [hwhole, length_hmacBlockKey, hsize]
  have hipad : ipad = hmacIpad a key := (map_range_getD (· ^^^ 0x36) hlen).trans (by rw [hwhole, hmacIpad])
  have hopad : opad = hmacOpad a key := (map_range_getD (· ^^^ 0x5C) hlen).trans (by rw [hwhole, hmacOpad])
  exact ⟨hlen, by rw [hipad, hopad, hmac]⟩

/-! ## The command -/

theorem counterBytes_eq (c : Nat) :
    counterBytes c = (List.range 8).map fun i => BitVec.ofNat 8 (c / 2 ^ (8 * (7 - i))) := by
  simp only [counterBytes, bytesBE, Nat.shiftRight_eq_div_pow]

theorem inContract_hmac {s : State} {a : HashAlg} (ha : HashAlg.ofReg? s.alg = some a) (hlo : 1 ≤ s.keylen.toNat)
    (hhi : s.keylen.toNat ≤ 256) : InContract .hmac s :=
  ⟨(HashAlg.ofReg?_isSome_iff s.alg).mp (Option.isSome_of_eq_some ha), hlo, hhi⟩

theorem eq_digest_of_commandWrites_hmac {l : Loc} (h : commandWrites .hmac l = true) : ∃ i, l = .digest i := by
  simp only [commandWrites] at h
  split at h
  · exact ⟨_, rfl⟩
  · cases h

theorem read_storeDigest (s : State) (d : List Byte) (i : Nat) :
    (s.storeDigest d).complete.digest.read i = d.getD i 0 := by simp

/-- Settles O40: the stored digest is the HMAC of the counter's bytes under `KEY[0..KEYLEN)`, and a digest ends at its
length. -/
theorem hmacCommandWritesTheDigest : Obligations.HmacCommandWritesTheDigest := by
  refine fun s => ⟨?_, fun hmask => exec_of_not_inContract (i := .hmac) ?_⟩
  · intro a ha hlo hhi c d
    have hd : hmac a s.secret (counterBytes s.ctr.toNat) = d := by rw [counterBytes_eq, State.toNat_ctr]; rfl
    have hexec := exec_hmac ha (inContract_hmac ha hlo hhi)
    obtain ⟨hframe, -⟩ := commandsWriteOnlyTheirResults .hmac s _ hexec
    have hlen : d.length = a.digestLen := length_hmac ..
    rw [hd] at hexec hframe
    refine ⟨_, hexec, rfl, fun i _ => read_storeDigest s d i, fun i hi => ?_,
      SameExcept.mono (fun _ => Or.imp_right eq_digest_of_commandWrites_hmac) hframe⟩
    rw [read_storeDigest, List.getD_eq_default _ _ (hlen ▸ hi)]
  · rwa [← argMask_eq_zero_iff]

/-! ## The spec's vectors -/

/-- Settles O60: the kernel runs each vector. -/
theorem hmacCheckValues : Obligations.HmacCheckValues := by
  unfold Obligations.HmacCheckValues
  and_intros <;> decide +kernel

end Sys2Proof.Machine
end

