-- ==== Sys2Proof/Proofs/Truncation.lean ====
section
/-! Dynamic truncation and digit extraction (spec/42_totp_engine.md R185 to R189): steps 4 to 8 written out over the
bytes of the digest, and the digits read back. -/

namespace Sys2Proof.Machine

/-! ## The truncated number -/

theorem truncOffset_eq (bs : List Byte) : truncOffset bs = (bs.getD (bs.length - 1) 0).toNat % 16 :=
  Nat.and_two_pow_sub_one_eq_mod _ 4

theorem take_succ_drop {bs : List Byte} {i : Nat} (h : i < bs.length) (n : Nat) :
    (bs.drop i).take (n + 1) = bs.getD i 0 :: (bs.drop (i + 1)).take n := by
  rw [List.drop_eq_getElem_cons h, List.take_succ_cons, List.getD_eq_getElem _ _ h]

/-- `BE32` of the four bytes at `i` (R11, R186). -/
theorem beNat_take_four_drop {bs : List Byte} {i : Nat} (h : i + 3 < bs.length) :
    beNat ((bs.drop i).take 4) = (bs.getD i 0).toNat * 2 ^ 24 + (bs.getD (i + 1) 0).toNat * 2 ^ 16 +
      (bs.getD (i + 2) 0).toNat * 2 ^ 8 + (bs.getD (i + 3) 0).toNat := by
  rw [take_succ_drop (by omega), take_succ_drop (by omega), take_succ_drop (by omega), take_succ_drop h]
  simp only [List.take_zero, beNat, List.foldl_cons, List.foldl_nil, Nat.add_assoc, Nat.reduceAdd]
  omega

/-- The greatest offset, 15, leaves room for four bytes in the shortest digest, of 20 bytes (R186). -/
theorem truncBincode_eq {bs : List Byte} (h : 20 ≤ bs.length) :
    truncBincode bs = ((bs.getD (truncOffset bs) 0).toNat * 2 ^ 24 + (bs.getD (truncOffset bs + 1) 0).toNat * 2 ^ 16 +
      (bs.getD (truncOffset bs + 2) 0).toNat * 2 ^ 8 + (bs.getD (truncOffset bs + 3) 0).toNat) % 2 ^ 31 := by
  have hoff := truncOffset_le bs
  rw [← beNat_take_four_drop (by omega)]
  exact Nat.and_two_pow_sub_one_eq_mod _ 31

theorem HashAlg.le_digestLen (alg : HashAlg) : 20 ≤ alg.digestLen := by cases alg <;> decide

/-! ## The stored results -/

theorem toNat_ofNat_of_lt {w n : Nat} (h : n < 2 ^ w) : (BitVec.ofNat w n).toNat = n := by
  rw [BitVec.toNat_ofNat, Nat.mod_eq_of_lt h]

theorem toNat_truncate_offset (s : State) (bs : List Byte) : (s.truncate bs).complete.offset.toNat = truncOffset bs :=
  toNat_ofNat_of_lt (Nat.lt_of_le_of_lt (truncOffset_le bs) (by decide))

theorem toNat_truncate_bincode (s : State) (bs : List Byte) :
    (s.truncate bs).complete.bincode.toNat = truncBincode bs :=
  toNat_ofNat_of_lt (Nat.lt_trans (truncBincode_lt bs) (by decide))

theorem toNat_truncate_value (s : State) (bs : List Byte) :
    (s.truncate bs).complete.value.toNat = codeValue s.digits.toNat bs :=
  toNat_ofNat_of_lt
    (Nat.lt_of_le_of_lt (Nat.mod_le _ _) (Nat.lt_trans (truncBincode_lt bs) (by decide)))

theorem truncate_code (s : State) (bs : List Byte) : (s.truncate bs).complete.code =
    Memory.ofBytes (codeText s.digits.toNat (codeValue s.digits.toNat bs)) := rfl

theorem read_truncate_code (s : State) (bs : List Byte) (i : Nat) : (s.truncate bs).complete.code.read i =
    if i < s.digits.toNat then digitChar (codeValue s.digits.toNat bs / 10 ^ (s.digits.toNat - 1 - i) % 10) else 0 := by
  rw [truncate_code, Memory.read_ofBytes, getD_codeText]

/-- What steps 4 to 8 leave in `t`, written out over the bytes `d` of a digest of `len` bytes (R185 to R189). -/
abbrev TruncationResults (digits len : Nat) (d : Nat → Nat) (t : State) : Prop :=
  let off := d (len - 1) % 16
  let bin := (d off * 2 ^ 24 + d (off + 1) * 2 ^ 16 + d (off + 2) * 2 ^ 8 + d (off + 3)) % 2 ^ 31
  let value := bin % 10 ^ digits
  t.offset.toNat = off ∧ t.bincode.toNat = bin ∧ t.value.toNat = value ∧
  (∀ i < digits, (t.code.read i).toNat = 0x30 + value / 10 ^ (digits - 1 - i) % 10) ∧
  (∀ i, digits ≤ i → t.code.read i = 0)

/-- The truncation of a digest of at least 20 bytes stores those results. -/
theorem truncationResults_truncate (s : State) {bs : List Byte} {len : Nat} {d : Nat → Nat} (hlen : bs.length = len)
    (hmin : 20 ≤ len) (hd : ∀ i < len, (bs.getD i 0).toNat = d i) :
    TruncationResults s.digits.toNat len d (s.truncate bs).complete := by
  have hle := truncOffset_le bs
  have hoff : truncOffset bs = d (len - 1) % 16 := by rw [truncOffset_eq, hlen, hd _ (by omega)]
  have hbin := truncBincode_eq (hlen ▸ hmin : 20 ≤ bs.length)
  rw [hd _ (by omega), hd _ (by omega), hd _ (by omega), hd _ (by omega), hoff] at hbin
  refine ⟨by rw [toNat_truncate_offset, hoff], by rw [toNat_truncate_bincode, hbin],
    by rw [toNat_truncate_value, codeValue, hbin], fun i hi => ?_, fun i hi => ?_⟩
  · rw [read_truncate_code, if_pos hi, toNat_digitChar (Nat.mod_lt _ (by decide)), codeValue, hbin]
  · rw [read_truncate_code, if_neg (Nat.not_lt.mpr hi)]

/-! ## The digits read back -/

/-- The number that a text of digit characters spells, most significant first. -/
def decimalNat (bs : List Byte) : Nat := bs.foldl (fun acc b => acc * 10 + (b.toNat - 0x30)) 0

/-- The last character is the number's last digit (R189). -/
theorem codeText_succ (n v : Nat) : codeText (n + 1) v = codeText n (v / 10) ++ [digitChar (v % 10)] := by
  have hdigit : ∀ i < n, v / 10 ^ (n - i) = v / 10 / 10 ^ (n - 1 - i) := by
    intro i hi
    rw [Nat.div_div_eq_div_mul, ← Nat.pow_succ']
    congr 2
    omega
  simp only [codeText, List.range_succ, List.map_append, List.map_singleton, Nat.add_sub_cancel, Nat.sub_self,
    Nat.pow_zero, Nat.div_one]
  congr 1
  exact List.map_congr_left fun i hi => by rw [hdigit i (List.mem_range.mp hi)]

/-- A number below `10^n` is read back from its `n` digits. -/
theorem decimalNat_codeText {n v : Nat} (h : v < 10 ^ n) : decimalNat (codeText n v) = v := by
  induction n generalizing v with
  | zero => rw [Nat.lt_one_iff.mp h]; rfl
  | succ n ih =>
    have hhigh : v / 10 < 10 ^ n := Nat.div_lt_of_lt_mul (by rwa [Nat.pow_succ'] at h)
    have hlast : (digitChar (v % 10)).toNat = 0x30 + v % 10 := toNat_digitChar (Nat.mod_lt _ (by decide))
    rw [codeText_succ, decimalNat, List.foldl_concat, ← decimalNat, ih hhigh, hlast, Nat.add_sub_cancel_left]
    exact Nat.div_add_mod' v 10

theorem decimalNat_bytes (m : Memory) (n : Nat) : decimalNat (m.bytes n) =
    (List.range n).foldl (fun acc j => acc * 10 + ((m.read j).toNat - 0x30)) 0 := List.foldl_map

theorem bytes_ofBytes_of_length {bs : List Byte} {n : Nat} (h : bs.length = n) : (Memory.ofBytes bs).bytes n = bs :=
  h ▸ Memory.bytes_ofBytes bs

/-- What R197 says of `CODE`: the first `DIGITS` cells are digit characters that spell `VALUE`, the others are zero. -/
theorem truncate_spells_value (s : State) (bs : List Byte) {t : State} (ht : t = (s.truncate bs).complete) :
    (∀ j < t.digits.toNat, IsDigit (t.code.read j)) ∧ (∀ j, t.digits.toNat ≤ j → t.code.read j = 0) ∧
    (List.range t.digits.toNat).foldl (fun acc j => acc * 10 + ((t.code.read j).toNat - 0x30)) 0 = t.value.toNat := by
  have hdigits : t.digits = s.digits := by rw [ht]; rfl
  rw [hdigits, ← decimalNat_bytes, ht, truncate_code, toNat_truncate_value,
    bytes_ofBytes_of_length (length_codeText ..), decimalNat_codeText (codeValue_lt ..), ← truncate_code]
  refine ⟨fun j hj => ?_, fun j hj => ?_, rfl⟩
  · rw [read_truncate_code, if_pos hj]
    exact isDigit_digitChar (Nat.mod_lt _ (by decide))
  · rw [read_truncate_code, if_neg (Nat.not_lt.mpr hj)]

end Sys2Proof.Machine
end

