-- ==== Sys2Proof/Proofs/TotpEngine.lean ====
section
/-! The commands `TSTEP`, `DTRUNC` and `TOTP` (spec/42_totp_engine.md R193 to R200): what each leaves, the stages in
turn against `TOTP`, and the counter and the seconds remaining. -/

namespace Sys2Proof.Machine

/-! ## The counter and the seconds remaining -/

theorem remainingOf_pos {p : Nat} (h : 1 ≤ p) (t : Nat) : 1 ≤ remainingOf t p :=
  Nat.sub_pos_of_lt (Nat.mod_lt t h)

/-- Within one period a second later is a second less (R199). -/
theorem remainingOf_succ {t p : Nat} (h : 1 ≤ p) (hsame : counterOf t p = counterOf (t + 1) p) :
    remainingOf (t + 1) p + 1 = remainingOf t p := by
  have hnow := Nat.div_add_mod t p
  have hlater := Nat.div_add_mod (t + 1) p
  have hlt := Nat.mod_lt (t + 1) h
  rw [counterOf, counterOf] at hsame
  rw [← hsame] at hlater
  rw [remainingOf, remainingOf]
  omega

theorem counterBytes_injective {c c' : Nat} (hc : c < 2 ^ 64) (hc' : c' < 2 ^ 64)
    (h : counterBytes c = counterBytes c') : c = c' := by
  rw [← beNat_bytesBE (k := 8) hc, ← beNat_bytesBE (k := 8) hc']
  exact congrArg beNat h

/-- Settles O47: the quotients on the two sides of the boundary, and the counter is read back from its bytes. -/
theorem counterBoundary : Obligations.CounterBoundary := by
  intro p k hp _ hk hfits
  refine ⟨?_, Nat.mul_div_cancel k hp, fun h => ?_⟩
  · obtain ⟨q, rfl⟩ := Nat.exists_eq_add_of_le' hk
    have hbefore : (q + 1) * p - 1 = q * p + (p - 1) := by rw [Nat.add_one_mul, Nat.add_sub_assoc hp]
    rw [counterOf, hbefore, Nat.mul_comm, Nat.mul_add_div hp, Nat.div_eq_of_lt (Nat.sub_one_lt_of_lt hp)]
    rfl
  · have heq := counterBytes_injective (Nat.lt_of_le_of_lt (Nat.sub_le ..) hfits) hfits h
    omega

/-! ## The time step -/

theorem State.ctr_storeStep (s : State) (c r : Nat) : (s.storeStep c r).ctr = BitVec.ofNat 64 c :=
  BitVec.extractLsb'_append_extractLsb'

/-- The counter fits the register pair: it is no greater than the time (R182). -/
theorem State.toNat_ctr_timeStep (s : State) : s.timeStep.ctr.toNat = counterOf s.time.toNat s.period.toNat := by
  rw [State.timeStep, State.ctr_storeStep]
  exact toNat_ofNat_of_lt (Nat.lt_of_le_of_lt (Nat.div_le_self ..) s.time.isLt)

theorem State.toNat_remain_timeStep {s : State} (h : s.period.toNat ≤ 120) :
    s.timeStep.remain.toNat = remainingOf s.time.toNat s.period.toNat :=
  toNat_ofNat_of_lt (Nat.lt_of_le_of_lt (Nat.le_trans (remainingOf_le ..) h) (by decide))

theorem State.remain_timeStep_bounds {s : State} (h : 1 ≤ s.period.toNat ∧ s.period.toNat ≤ 120) :
    1 ≤ s.timeStep.remain.toNat ∧ s.timeStep.remain.toNat ≤ s.period.toNat := by
  rw [State.toNat_remain_timeStep h.2]
  exact ⟨remainingOf_pos h.1 _, remainingOf_le ..⟩

/-- The counter and the seconds remaining that steps 1 and 9 leave, over the registers (R182, R190). -/
theorem State.timeStep_results {s : State} (h : s.period.toNat ≤ 120) :
    s.timeStep.ctrHi.toNat * 2 ^ 32 + s.timeStep.ctrLo.toNat =
      (s.timeHi.toNat * 2 ^ 32 + s.timeLo.toNat) / s.period.toNat ∧
    s.timeStep.remain.toNat =
      s.period.toNat - (s.timeHi.toNat * 2 ^ 32 + s.timeLo.toNat) % s.period.toNat := by
  rw [← State.toNat_ctr, ← State.toNat_time, State.toNat_ctr_timeStep, State.toNat_remain_timeStep h]
  exact ⟨rfl, rfl⟩

/-- Settles O45: both commands store the seconds remaining of the time step. -/
theorem remainIsBetweenOneAndPeriod : Obligations.RemainIsBetweenOneAndPeriod := by
  rintro i s t (rfl | rfl) h hdone
  · obtain ⟨hc, rfl⟩ := effect_of_statusDone h hdone
    exact State.remain_timeStep_bounds hc
  · obtain ⟨⟨hperiod, -⟩, -, -, rfl⟩ := effect_of_statusDone h hdone
    exact State.remain_timeStep_bounds hperiod

/-! ## What each command leaves -/

/-- The row of `TSTEP` (R95). -/
theorem eq_of_commandWrites_tstep {l : Loc} (h : commandWrites .tstep l = true) :
    l = .operand .ctrLo ∨ l = .operand .ctrHi ∨ l = .result .remain := by
  simp only [commandWrites] at h
  split at h
  · exact .inl rfl
  · exact .inr (.inl rfl)
  · exact .inr (.inr rfl)
  · cases h

/-- The row of `DTRUNC` (R95). -/
theorem eq_of_commandWrites_dtrunc {l : Loc} (h : commandWrites .dtrunc l = true) :
    l = .result .offset ∨ l = .result .bincode ∨ l = .result .value ∨ ∃ i, l = .code i := by
  simp only [commandWrites] at h
  split at h
  · exact .inl rfl
  · exact .inr (.inl rfl)
  · exact .inr (.inr (.inl rfl))
  · exact .inr (.inr (.inr ⟨_, rfl⟩))
  · cases h

/-- The frame of a command whose execution is known. -/
theorem sameExcept_of_exec {i : Instr} {s t : State} (h : exec i s = .next t) :
    SameExcept (fun l => l = .status ∨ commandWrites i l = true) s t :=
  (commandsWriteOnlyTheirResults i s t h).1

theorem exec_of_argMask_ne_zero {i : Instr} {s : State} (h : argMask (commandNeeds i) s ≠ 0) :
    exec i s = .next (s.reject (argMask (commandNeeds i) s)) :=
  exec_of_not_inContract fun hc => h ((argMask_eq_zero_iff i s).mpr hc)

theorem exec_tstep_of_periodBad {s : State} (h : periodBad s.period) :
    exec .tstep s = .next { s with status := 0x00000112 } := by
  have hmask : argMask (commandNeeds .tstep) s = 0x01 := by simp [argMask, commandNeeds, h]
  rw [exec_of_argMask_ne_zero (by rw [hmask]; decide), hmask]
  rfl

/-- Settles O41: in contract the time step is stored, out of contract the mask is the period's bit alone. -/
theorem tstepWritesCounterAndRemaining : Obligations.TstepWritesCounterAndRemaining := by
  refine fun s => ⟨fun hlo hhi => ?_, exec_tstep_of_periodBad⟩
  have hexec : exec .tstep s = .next s.timeStep.complete := exec_tstep ⟨hlo, hhi⟩
  obtain ⟨hctr, hremain⟩ := State.timeStep_results hhi
  exact ⟨_, hexec, rfl, hctr, hremain,
    SameExcept.mono (fun _ => Or.imp_right eq_of_commandWrites_tstep) (sameExcept_of_exec hexec)⟩

/-- Settles O42: the digest is the first bytes of `DIGEST`, whatever they are. -/
theorem dtruncExtractsTheDigits : Obligations.DtruncExtractsTheDigits := by
  refine fun s => ⟨fun a ha hdigits => ?_, exec_of_argMask_ne_zero (i := .dtrunc)⟩
  have hc : InContract .dtrunc s :=
    ⟨hdigits, (HashAlg.ofReg?_isSome_iff s.alg).mp (Option.isSome_of_eq_some ha)⟩
  have hexec := exec_dtrunc ha hc
  have hbytes : ∀ i < a.digestLen, ((s.digest.bytes a.digestLen).getD i 0).toNat = (s.digest.read i).toNat :=
    fun i hi => by rw [Memory.getD_bytes, if_pos hi]
  obtain ⟨hoff, hbin, hvalue, hcode, hzero⟩ :=
    truncationResults_truncate s (Memory.length_bytes ..) a.le_digestLen hbytes
  exact ⟨_, hexec, rfl, hoff, hbin, hvalue, hcode, hzero,
    SameExcept.mono (fun _ => Or.imp_right eq_of_commandWrites_dtrunc) (sameExcept_of_exec hexec)⟩

/-- Settles O43: the digest is the HMAC of the counter's bytes; the truncation leaves it, the counter and the seconds
remaining as they were stored. -/
theorem totpComputesTheCode : Obligations.TotpComputesTheCode := by
  refine fun s => ⟨?_, exec_of_argMask_ne_zero (i := .totp)⟩
  intro a ha hc time c dig
  have ⟨⟨_, hperiod⟩, _⟩ := hc
  obtain ⟨hctr, hremain⟩ := State.timeStep_results hperiod
  have hdig : hmac a s.secret (counterBytes (counterOf s.time.toNat s.period.toNat)) = dig := by
    rw [counterBytes_eq, State.toNat_time]; rfl
  have hlen : dig.length = a.digestLen := length_hmac ..
  have hexec := exec_totp ha hc
  rw [hdig] at hexec
  obtain ⟨hoff, hbin, hvalue, hcode, hzero⟩ :=
    truncationResults_truncate (s.timeStep.storeDigest dig) hlen a.le_digestLen fun _ _ => rfl
  have hread : ∀ i, (Memory.ofBytes dig).read i = dig.getD i 0 := Memory.read_ofBytes dig
  have htail : ∀ i, a.digestLen ≤ i → (Memory.ofBytes dig).read i = 0 := fun i hi =>
    (hread i).trans (List.getD_eq_default _ _ (hlen ▸ hi))
  exact ⟨_, hexec, rfl, hctr, hremain, fun i _ => hread i, htail, hoff, hbin, hvalue, hcode, hzero,
    sameExcept_of_exec hexec⟩

/-- Settles O46: both commands end with the truncation of a digest. -/
theorem codeSpellsTheValue : Obligations.CodeSpellsTheValue := by
  rintro i s t (rfl | rfl) h hdone
  · obtain ⟨⟨hdigits, -⟩, a, -, ht⟩ := effect_of_statusDone h hdone
    exact ⟨ht ▸ hdigits, truncate_spells_value _ _ ht⟩
  · obtain ⟨⟨-, hdigits, -⟩, a, -, ht⟩ := effect_of_statusDone h hdone
    exact ⟨ht ▸ hdigits, truncate_spells_value _ _ ht⟩

/-! ## The stages in turn -/

/-- `DTRUNC` after `HMAC` truncates the digest that `HMAC` stored. -/
theorem exec_hmac_dtrunc {s : State} {a : HashAlg} (ha : HashAlg.ofReg? s.alg = some a) (hhmac : InContract .hmac s)
    (hdtrunc : InContract .dtrunc s) {d : List Byte} (hd : hmac a s.secret (counterBytes s.ctr.toNat) = d) :
    exec .hmac s = .next (s.storeDigest d).complete ∧
    exec .dtrunc (s.storeDigest d).complete = .next ((s.storeDigest d).complete.truncate d).complete := by
  have hlen : d.length = a.digestLen := hd ▸ length_hmac ..
  have hread : (s.storeDigest d).complete.digest.bytes a.digestLen = d := bytes_ofBytes_of_length hlen
  have htrunc := exec_dtrunc (s := (s.storeDigest d).complete) ha hdtrunc
  rw [hread] at htrunc
  exact ⟨hd ▸ exec_hmac ha hhmac, htrunc⟩

/-- Settles O44: `TSTEP` leaves the counter from which `HMAC` makes the digest of `TOTP`. -/
theorem stagesOneByOneEqualTotp : Obligations.StagesOneByOneEqualTotp := by
  intro s hmask
  have hc := (argMask_eq_zero_iff .totp s).mp hmask
  obtain ⟨a, ha⟩ := hc.alg (by decide)
  have ⟨hperiod, hdigits, halg, hkeylen⟩ := hc
  have hctr : s.timeStep.complete.ctr.toNat = counterOf s.time.toNat s.period.toNat := s.toNat_ctr_timeStep
  obtain ⟨hhmac, hdtrunc⟩ :=
    exec_hmac_dtrunc (s := s.timeStep.complete) ha ⟨halg, hkeylen⟩ ⟨hdigits, halg⟩ (by rw [hctr])
  exact ⟨_, _, _, exec_tstep hperiod, hhmac, hdtrunc, exec_totp ha hc⟩

/-- The state whose time is the counter and whose period is one second (R200). -/
def State.withCounterAsTime (s : State) : State := { s with period := 1, timeLo := s.ctrLo, timeHi := s.ctrHi }

theorem State.counterOf_withCounterAsTime (s : State) :
    counterOf s.withCounterAsTime.time.toNat s.withCounterAsTime.period.toNat = s.ctr.toNat := Nat.div_one _

theorem State.inContract_totp_withCounterAsTime {s : State} (hhmac : InContract .hmac s)
    (hdtrunc : InContract .dtrunc s) : InContract .totp s.withCounterAsTime := by
  obtain ⟨halg, hkeylen⟩ := hhmac
  obtain ⟨hdigits, -⟩ := hdtrunc
  have hone : 1 ≤ (1 : Word).toNat ∧ (1 : Word).toNat ≤ 120 := by decide
  exact ⟨hone, hdigits, halg, hkeylen⟩

/-- Settles O49: with period 1 the counter of `TOTP` is the time, so both ways truncate the same digest. -/
theorem counterDrivenUse : Obligations.CounterDrivenUse := by
  intro s hhmac hdtrunc
  obtain ⟨a, ha⟩ := hhmac.alg (by decide)
  obtain ⟨hfirst, hthen⟩ := exec_hmac_dtrunc ha hhmac hdtrunc rfl
  have htotp := exec_totp (s := s.withCounterAsTime) ha (State.inContract_totp_withCounterAsTime hhmac hdtrunc)
  rw [State.counterOf_withCounterAsTime] at htotp
  exact ⟨_, _, _, hfirst, hthen, htotp, rfl, rfl, rfl, rfl, rfl, rfl, rfl, rfl, rfl, rfl⟩

/-! ## One second later -/

/-- The state with another reference time (R27). -/
def State.withTime (s : State) (lo hi : Word) : State := { s with timeLo := lo, timeHi := hi }

/-- At a time with the same counter the time step leaves the same but for the time and the seconds remaining. -/
theorem State.timeStep_withTime {s : State} {lo hi : Word}
    (h : counterOf (s.withTime lo hi).time.toNat s.period.toNat = counterOf s.time.toNat s.period.toNat) :
    (s.withTime lo hi).timeStep =
      { s.timeStep with timeLo := lo, timeHi := hi, remain := (s.withTime lo hi).timeStep.remain } := by
  have hcounter : counterOf (s.withTime lo hi).time.toNat (s.withTime lo hi).period.toNat = _ := h
  simp only [State.timeStep, hcounter]
  rfl

/-- A second later in the same period the time step leaves a second less. -/
theorem State.remain_timeStep_withTime {s : State} {lo hi : Word} (hlo : 1 ≤ s.period.toNat)
    (hhi : s.period.toNat ≤ 120) (hlater : (s.withTime lo hi).time.toNat = s.time.toNat + 1)
    (hsame : counterOf s.time.toNat s.period.toNat = counterOf (s.withTime lo hi).time.toNat s.period.toNat) :
    (s.withTime lo hi).timeStep.remain.toNat + 1 = s.timeStep.remain.toNat := by
  rw [State.toNat_remain_timeStep (s := s.withTime lo hi) hhi, State.toNat_remain_timeStep hhi, hlater]
  rw [hlater] at hsame
  exact remainingOf_succ hlo hsame

/-- Settles O48: the counter is the same, so the digest and all that is cut from it are. -/
theorem oneSecondLaterInTheSamePeriod : Obligations.OneSecondLaterInTheSamePeriod := by
  intro s s' t hs' hlater hsame hc h
  obtain ⟨a, ha⟩ := hc.alg (by decide)
  have ⟨⟨hlo, hhi⟩, _⟩ := hc
  obtain ⟨lo, hi, rfl⟩ : ∃ lo hi, s' = s.withTime lo hi := ⟨_, _, hs'⟩
  have hcounter : counterOf (s.withTime lo hi).time.toNat (s.withTime lo hi).period.toNat =
      counterOf s.time.toNat s.period.toNat := hsame.symm
  have htotp := exec_totp (s := s.withTime lo hi) ha hc
  rw [hcounter, State.timeStep_withTime hcounter] at htotp
  rw [exec_totp ha hc] at h
  obtain rfl := Host.Outcome.next.inj h
  exact ⟨_, htotp, rfl, State.remain_timeStep_withTime hlo hhi hlater hsame⟩

end Sys2Proof.Machine
end

section
/-! The command `CLEAR` (spec/43_control.md R210): the state it leaves. -/

namespace Sys2Proof.Machine

/-- Settles O50: `CLEAR` needs no check, so it always completes; zeroising leaves the reset state but for `CMD`, `STATUS`
and the host's side, and completing sets `STATUS`. -/
theorem clearLeavesTheResetState : Obligations.ClearLeavesTheResetState := by
  intro s
  rw [exec_clear, State.zeroise_eq]
  rfl

end Sys2Proof.Machine
end

section
/-! The command errors (spec/60_exceptions.md R221 to R226): the check mask bit by bit, the status words of a rejection,
and what a command error changes. -/

namespace Sys2Proof.Machine

/-! ## The check mask (R226) -/

/-- A check that fails contributes its own bits to the mask, one that passes none. -/
theorem getLsbD_check (failed : Prop) [Decidable failed] (bits : ArgBits) (k : Nat) :
    (if failed then bits else 0).getLsbD k = (decide failed && bits.getLsbD k) := by
  split <;> simp [*]

/-- Each bit of the mask gathers what the six checks contribute to it. -/
theorem getLsbD_argMask (needs : List Need) (s : State) (k : Nat) : (argMask needs s).getLsbD k =
    (decide (Need.period ∈ needs ∧ periodBad s.period) && (0x01 : ArgBits).getLsbD k ||
      decide (Need.digits ∈ needs ∧ digitsBad s.digits) && (0x02 : ArgBits).getLsbD k ||
      decide (Need.alg ∈ needs ∧ algBad s.alg) && (0x04 : ArgBits).getLsbD k ||
      decide (Need.secret ∈ needs ∧ secretEmpty s.keylen) && (0x08 : ArgBits).getLsbD k ||
      decide (Need.secret ∈ needs ∧ keylenOver s.keylen) && (0x10 : ArgBits).getLsbD k ||
      decide (Need.ibuf ∈ needs ∧ ilenOver s.ilen) && (0x20 : ArgBits).getLsbD k) := by
  simp only [argMask, BitVec.getLsbD_or, getLsbD_check]

/-- Settles O21: the six checks contribute six different bits, so bit `k` is the outcome of one check; the needs are
read off the table of R226. -/
theorem argMaskBitsAndNeeds : Obligations.ArgMaskBitsAndNeeds := by
  refine ⟨fun needs s => ?_, fun i n => ?_⟩
  · simp only [getLsbD_argMask]
    simp
  · cases i <;> cases n <;> simp [commandNeeds]

/-! ## The status word of a rejection (R222) -/

theorem statusRejected_of_mask (m : ArgBits) : statusRejected (rejectionClass m) (m.setWidth 8) =
    if m &&& 0x0F ≠ 0 then 0x00000012#32 ||| (m.setWidth 32 <<< 8) else 0x00000022#32 ||| (m.setWidth 32 <<< 8) := by
  revert m; decide

theorem statusErr_rejected (e : CommandError) (info : Byte) : statusErr (statusRejected e info) = true := by
  cases e <;> simp [statusErr, statusRejected, CommandError.errcode]

/-- Settles O22: a mask that is not zero rejects the command, and the rejection writes the mask's status word. -/
theorem rejectedCommandWritesOnlyStatus : Obligations.RejectedCommandWritesOnlyStatus := by
  intro i s h
  rw [exec_of_argMask_ne_zero h, State.reject_eq, statusRejected_of_mask]
  rfl

/-- Settles O23: in contract the command's effect ends in the success word, outside it the rejection sets `STATUS`
alone. -/
theorem commandSucceedsExactlyInContract : Obligations.CommandSucceedsExactlyInContract := by
  refine fun i s => ⟨fun hc => ?_, fun hc => ?_⟩
  · obtain ⟨t, ht⟩ := exec_next i s
    obtain ⟨hout, -⟩ | ⟨-, heffect⟩ := exec_cases ht
    · exact absurd hc hout
    · exact ⟨t, ht, heffect.status⟩
  · exact ⟨_, exec_of_not_inContract hc, statusErr_rejected _ _, statusDone_rejected _, rfl⟩

/-! ## CapacityError (R224) -/

/-- A mask that holds the key buffer's bit alone rejects the command for capacity. -/
theorem exec_of_argMask_keylenOver {i : Instr} {s : State} (h : argMask (commandNeeds i) s = 0x10) :
    exec i s = .next { s with status := 0x00001022 } := by
  rw [exec_of_argMask_ne_zero (by rw [h]; decide), h]
  rfl

/-- When all the argument checks a command needs pass, the capacity check of the key buffer alone makes its mask. -/
theorem argMask_of_keylenOver {needs : List Need} {s : State} (hneeds : Need.secret ∈ needs ∧ Need.ibuf ∉ needs)
    (hkey : keylenOver s.keylen) (hperiod : ¬ (Need.period ∈ needs ∧ periodBad s.period))
    (hdigits : ¬ (Need.digits ∈ needs ∧ digitsBad s.digits)) (halg : ¬ (Need.alg ∈ needs ∧ algBad s.alg)) :
    argMask needs s = 0x10 := by
  have hempty : ¬ secretEmpty s.keylen := fun h => by rw [keylenOver, h] at hkey; omega
  simp only [argMask, hperiod, hdigits, halg, hneeds, hempty, hkey, and_false, false_and, and_true, if_true, if_false]
  rfl

/-- Settles O24: the hypotheses leave the capacity check as the only one that fails. -/
theorem capacityErrorStatusWords : Obligations.CapacityErrorStatusWords := by
  refine fun s => ⟨fun hkey hlo hhi => ?_, fun hkey hlo hhi hdigits hplo hphi => ?_, fun hilen => ?_⟩
  · have halg : ¬ algBad s.alg := by rw [algBad]; omega
    exact exec_of_argMask_keylenOver <| argMask_of_keylenOver (by decide) hkey (fun h => absurd h.1 (by decide))
      (fun h => absurd h.1 (by decide)) (fun h => halg h.2)
  · have halg : ¬ algBad s.alg := by rw [algBad]; omega
    have hperiod : ¬ periodBad s.period := by rw [periodBad]; omega
    have hdigits' : ¬ digitsBad s.digits := by rw [digitsBad]; omega
    exact exec_of_argMask_keylenOver <| argMask_of_keylenOver (by decide) hkey (fun h => hperiod h.2)
      (fun h => hdigits' h.2) (fun h => halg h.2)
  · exact ⟨exec_of_ilen_over rfl hilen, exec_of_ilen_over rfl hilen⟩

/-! ## IllegalCommand (R225) -/

/-- A word that is none of the seven decodes to no command. -/
theorem exists_decode_error {w : Word}
    (h : ¬ (w = 0x01 ∨ w = 0x02 ∨ w = 0x10 ∨ w = 0x11 ∨ w = 0x12 ∨ w = 0x13 ∨ w = 0x20)) :
    ∃ e, decode w = .error e := by
  cases hd : decode w with
  | error e => exact ⟨e, rfl⟩
  | ok i =>
    obtain rfl := decode_eq_ok_iff.mp hd
    exact absurd (by cases i <;> simp [encode]) h

/-- Settles O14: the access reaches `CMD`, and the word decodes to no command. -/
theorem illegalWordOnlySetsCmdAndStatus : Obligations.IllegalWordOnlySetsCmdAndStatus := by
  intro s w rest hpending hw
  obtain ⟨e, he⟩ := exists_decode_error hw
  have hwrite : memWrite (Loc.portOffset .cmd) w (s.withPending rest) =
      .next ((s.withPending rest).setCmd w).illegalCommand := by
    rw [memWrite_cmd, writeCmd_of_error he]
  rw [step_of_pending hpending, perform_write hwrite]
  rfl

end Sys2Proof.Machine
end
